-- ==== Sys2Proof/Word.lean ====
section
/-! DEFINITION. The datum of the NDEC cipher engine: the byte.

Every datum of the engine is one 8-bit byte with arithmetic modulo 256 (spec/00_scope.md R5, R9). The byte operators
of R9 are those of `BitVec 8`: `+`, `-`, unary `-`, `*`, `^^^`, `~~~`, `<<<`; each of them wraps and none of them sets
a flag (R9, spec/10_state.md R32). The rotates of R10 stand in Machine/Ops.lean. Indices, lengths and counters are
natural numbers (R7). -/

namespace Sys2Proof

/-- `u8` of spec/00_scope.md R7. -/
abbrev Byte := BitVec 8

end Sys2Proof
end

