-- ==== Sys2Proof/Config.lean ====
section
/-! DEFINITION. What an implementation fixes, and the free values.

The parameters of spec/00_scope.md R6 are a structure of plain data (`Params`) that State carries and no step changes;
the constants of R5 are definitions; the state that reset leaves unspecified (spec/10_state.md R37,
spec/93_implementation_defined.md U6) is drawn from the opaque constants below, which have no body. -/

namespace Sys2Proof

/-- The four byte memories, each its own address space (spec/10_state.md R30, spec/20_memory.md R60). -/
inductive Space
  | pw1
  | pw2
  | gamma
  | data
deriving DecidableEq, Repr

/-- A capacity parameter: "natural number or unbounded" (spec/92_eei_decisions.md, open parameters). -/
inductive Capacity
  | bounded (n : Nat)
  | unbounded
deriving DecidableEq, Repr

/-- The open parameters the model takes as arguments (spec/00_scope.md R6). `BUS_MAP` is not among them: nothing of the
spec depends on it. -/
structure Params where
  pwMax   : Capacity
  dataMax : Capacity
deriving DecidableEq, Repr

/-- "gamma buffer length is always exactly 255" (spec/00_scope.md R5). -/
abbrev Config.gammaLen : Nat := 255

/-- The generator runs "exactly 125 iterations" (R5). -/
abbrev Config.genIters : Nat := 125

/-- The password digest pads or truncates its password to 255 bytes (R5). -/
abbrev Config.padLen : Nat := 255

/-- The parameters of `State.reset`. DESIGN CHOICE (log 4): the spec leaves them open; with 512 every vector of
spec/95_test_vectors.md can be run (V15, V22, V26). -/
def Config.defaultParams : Params := { pwMax := .bounded 512, dataMax := .bounded 512 }

/-- The byte registers that reset leaves unspecified (spec/10_state.md R37): three CSRs, CMDR and the scratch bytes. -/
inductive ByteReg
  | iv | ghash | pwhash | cmdr
  | st1 | st2 | cur | hash | state | gx | gs | x | t | riv | p | rst
deriving DecidableEq, Repr

/-- The natural-number scratch registers that reset leaves unspecified (R37, R26). -/
inductive NatReg
  | k | i | j | ctr | gi
deriving DecidableEq, Repr

/-- FREE VALUE (log 5, 7): the byte a register holds after the `n`-th draw of the unspecified state. -/
opaque Config.drawnByte : ByteReg → Nat → Byte

/-- FREE VALUE (log 7): the number a scratch register holds after the `n`-th draw. -/
opaque Config.drawnNat : NatReg → Nat → Nat

/-- FREE VALUE (log 7): the stage index after the `n`-th draw (any of 0 to 3). -/
opaque Config.drawnSeq : Nat → Fin 4

/-- FREE VALUE (log 6): the byte at an index of a memory that nothing has written since the `n`-th draw. -/
opaque Config.drawnCell : Space → Nat → Nat → Byte

end Sys2Proof
end

