-- ==== Sys2Proof/Syntax.lean ====
section
/-! DEFINITION. The twelve commands of the engine (spec/30_encoding.md R93; spec/opcode_table.json).

No command carries an operand in its encoding: every operand is implicit, a CSR or a memory named in the command's rule
(R92). -/

namespace Sys2Proof

/-- One constructor per row of the opcode table, in the table's order. -/
inductive Instr
  /-- KGEN, 0x10: the keystream generator (R112). -/
  | kgen
  /-- DGST.G, 0x20: the gamma digest (R132). -/
  | dgstG
  /-- DGST.P, 0x22: the password digest (R134). -/
  | dgstP
  /-- RND1.E, 0x30: Round 1 forward (R152). -/
  | rnd1E
  /-- RND1.D, 0x31: Round 1 inverse (R153). -/
  | rnd1D
  /-- RND2.E, 0x40: Round 2 forward (R177). -/
  | rnd2E
  /-- RND2.D, 0x41: Round 2 inverse (R178). -/
  | rnd2D
  /-- RND3.E, 0x50: Round 3 forward (R194). -/
  | rnd3E
  /-- RND3.D, 0x51: Round 3 inverse (R195). -/
  | rnd3D
  /-- INIT, 0x60: build the context (R211). -/
  | init
  /-- ENC, 0x62: encrypt the working buffer (R213). -/
  | enc
  /-- DEC, 0x63: decrypt a framed buffer (R214). -/
  | dec
deriving DecidableEq, Repr

end Sys2Proof
end

