-- ==== Sys2Proof/WellFormed.lean ====
section
/-! DEFINITION. The checks on syntax: which fields of format C name a command, and which parameters are legal.

A command has no operand, so every term of `Instr` is well formed; what can be ill formed is a command WORD, taken apart
into its fields (spec/30_encoding.md R91). The checks on host moves stand in Machine/Host.lean, where their sizes are. -/

namespace Sys2Proof

/-- A command word taken apart, format C (spec/30_encoding.md R91). -/
structure CmdFields where
  unit : BitVec 4
  fn   : BitVec 3
  d    : BitVec 1
deriving DecidableEq, Repr

/-- The UNIT, FN and D columns of spec/30_encoding.md R93. -/
def Instr.fields : Instr → CmdFields
  | .kgen  => { unit := 1, fn := 0, d := 0 }
  | .dgstG => { unit := 2, fn := 0, d := 0 }
  | .dgstP => { unit := 2, fn := 1, d := 0 }
  | .rnd1E => { unit := 3, fn := 0, d := 0 }
  | .rnd1D => { unit := 3, fn := 0, d := 1 }
  | .rnd2E => { unit := 4, fn := 0, d := 0 }
  | .rnd2D => { unit := 4, fn := 0, d := 1 }
  | .rnd3E => { unit := 5, fn := 0, d := 0 }
  | .rnd3D => { unit := 5, fn := 0, d := 1 }
  | .init  => { unit := 6, fn := 0, d := 0 }
  | .enc   => { unit := 6, fn := 1, d := 0 }
  | .dec   => { unit := 6, fn := 1, d := 1 }

/-- UNIT: 1 to 6 are units, 0 and 7 to 15 are reserved (R91). -/
def CmdFields.unitOk (f : CmdFields) : Bool := decide (1 ≤ f.unit.toNat) && decide (f.unit.toNat ≤ 6)

/-- FN: 0 for every unit, and 1 for DGU and CTL; all other values are reserved (R91). -/
def CmdFields.fnOk (f : CmdFields) : Bool :=
  f.fn == 0 || (f.fn == 1 && (f.unit == 2 || f.unit == 6))

/-- D must be 0 for the commands that have no direction: KGEN, DGST.G, DGST.P, INIT (R91). -/
def CmdFields.dOk (f : CmdFields) : Bool :=
  f.d == 0 || !(f.unit == 1 || f.unit == 2 || (f.unit == 6 && f.fn == 0))

/-- The three checks together: the fields name a command. -/
def CmdFields.wf (f : CmdFields) : Bool := f.unitOk && f.fnOk && f.dOk

/-- The check on an instruction as syntax: its fields name a command. -/
def Instr.wf (i : Instr) : Bool := i.fields.wf

/-- A capacity is at least 1 (spec/00_scope.md R6). -/
def Capacity.wf : Capacity → Bool
  | .bounded n => decide (1 ≤ n)
  | .unbounded => true

/-- Both capacities are legal (R6). -/
def Params.wf (p : Params) : Bool := p.pwMax.wf && p.dataMax.wf

end Sys2Proof
end

