-- ==== Sys2Proof/Decode.lean ====
section
/-! DEFINITION. Decoding a command word (total, rejecting by name) and encoding a command.

The decoder reads the fields of format C (spec/30_encoding.md R91); the encoder is the hex column of R93. There is one
word length, 8 bits (R90). -/

namespace Sys2Proof

/-- Why a byte is none of the twelve command words (spec/30_encoding.md R94). -/
inductive Reject
  /-- UNIT is 0 or 7 to 15. -/
  | reservedUnit
  /-- FN is a reserved value of its unit. -/
  | reservedFn
  /-- D = 1 in a command that has no direction. -/
  | directionless
deriving DecidableEq, Repr

/-- The fields of a byte: UNIT 7:4, FN 3:1, D 0 (R91). -/
def fieldsOf (w : Byte) : CmdFields :=
  { unit := w.extractLsb' 4 4, fn := w.extractLsb' 1 3, d := w.extractLsb' 0 1 }

/-- The byte with the given fields, bit 7 leftmost (R91). -/
def CmdFields.word (f : CmdFields) : Byte := f.unit ++ f.fn ++ f.d

/-- Decode a command word. Each case is a row of R93; every other byte is rejected by name (R94, R101). -/
def decode (w : Byte) : Except Reject Instr :=
  let f := fieldsOf w
  match f.unit.toNat, f.fn.toNat, f.d.toNat with
  | 1, 0, 0 => .ok .kgen
  | 2, 0, 0 => .ok .dgstG
  | 2, 1, 0 => .ok .dgstP
  | 3, 0, 0 => .ok .rnd1E
  | 3, 0, 1 => .ok .rnd1D
  | 4, 0, 0 => .ok .rnd2E
  | 4, 0, 1 => .ok .rnd2D
  | 5, 0, 0 => .ok .rnd3E
  | 5, 0, 1 => .ok .rnd3D
  | 6, 0, 0 => .ok .init
  | 6, 1, 0 => .ok .enc
  | 6, 1, 1 => .ok .dec
  | _, _, _ =>
    if !f.unitOk then .error .reservedUnit
    else if !f.fnOk then .error .reservedFn
    else .error .directionless

/-- The match value of a command: the hex column of spec/30_encoding.md R93. -/
def encode : Instr → Byte
  | .kgen  => 0x10
  | .dgstG => 0x20
  | .dgstP => 0x22
  | .rnd1E => 0x30
  | .rnd1D => 0x31
  | .rnd2E => 0x40
  | .rnd2D => 0x41
  | .rnd3E => 0x50
  | .rnd3D => 0x51
  | .init  => 0x60
  | .enc   => 0x62
  | .dec   => 0x63

/-- The byte a table word of `nbits` bits stands for: a command is one byte, so a word with a bit above bit 7 is none. -/
def tableByte (nbits w : Nat) : Option Byte :=
  let v := w % 2 ^ nbits
  if v < 256 then some (BitVec.ofNat 8 v) else none

/-- The instruction the decoder reads from a word numbered as spec/opcode_table.json numbers it. -/
def decodeTableWord (nbits w : Nat) : Option Instr :=
  match tableByte nbits w with
  | none => none
  | some b =>
    match decode b with
    | .ok i => some i
    | .error _ => none

end Sys2Proof
end

