-- ==== Sys2Proof/Machine/Script.lean ====
section
/-! DEFINITION. Host scripts: what the HOST agent performs, one line after another (spec/30_encoding.md R99, R100).

The primitive lines are the host's moves; the pseudo-lines expand into them. -/

namespace Sys2Proof.Machine

/-- What a host access names: a CSR by its number, or an index of a byte memory (R100; spec/20_memory.md R66, R67). -/
inductive Target
  | csr (no : Nat)
  | mem (sp : Space) (idx : Nat)
deriving DecidableEq, Repr

/-! The CSR names of spec/10_state.md R22. -/

abbrev Target.CMD    : Target := .csr 0
abbrev Target.STATUS : Target := .csr 1
abbrev Target.IV     : Target := .csr 2
abbrev Target.GHASH  : Target := .csr 3
abbrev Target.PWHASH : Target := .csr 4
abbrev Target.LEN    : Target := .csr 5
abbrev Target.PW1LEN : Target := .csr 6
abbrev Target.PW2LEN : Target := .csr 7

/-- The primitive lines of R100. -/
inductive HostLine
  /-- `wr T, v`: HostWrite of value v to target T. -/
  | wr (t : Target) (v : Nat)
  /-- `rd T`: HostRead of target T. -/
  | rd (t : Target)
  /-- `cmd M`: the match value of M written to CMD. -/
  | cmd (m : Instr)
  /-- `wait`: read STATUS until the value read has BUSY = 0. -/
  | wait
  /-- `ack`: 0x00 written to STATUS. -/
  | ack
  /-- `reset`: the reset event (spec/70_reset_and_hazards.md R280). -/
  | reset
deriving DecidableEq, Repr

/-- The lines of a script listing: primitive ones, and the pseudo-lines of R100. -/
inductive ScriptLine
  | line (l : HostLine)
  | ldpw1 (b : List Byte)
  | ldpw2 (b : List Byte)
  | lddata (b : List Byte)
  | ldgamma (b : List Byte)
  | run (m : Instr)
  /-- `expect T = v` performs `rd T`; that the value is v is the listing's claim, not a move. -/
  | expect (t : Target) (v : Nat)
deriving DecidableEq, Repr

/-- `wr S[a], b[0]`, `wr S[a+1], b[1]`, and so on. -/
def loadLines (sp : Space) : Nat → List Byte → List HostLine
  | _, [] => []
  | a, b :: rest => .wr (.mem sp a) b.toNat :: loadLines sp (a + 1) rest

/-- The expansions of R100. R100 gives `ldgamma` for 255 bytes only; that the line expands for any number of bytes is the
model's choice (DESIGN CHOICE, log 24). -/
def ScriptLine.expand : ScriptLine → List HostLine
  | .line l => [l]
  | .ldpw1 b => loadLines .pw1 0 b ++ [.wr .PW1LEN b.length]
  | .ldpw2 b => loadLines .pw2 0 b ++ [.wr .PW2LEN b.length]
  | .lddata b => loadLines .data 0 b ++ [.wr .LEN b.length]
  | .ldgamma b => loadLines .gamma 0 b
  | .run m => [.cmd m, .wait]
  | .expect t _ => [.rd t]

/-- A whole listing as the moves it performs. -/
def expandScript (ls : List ScriptLine) : List HostLine := ls.flatMap ScriptLine.expand

end Sys2Proof.Machine
end

