-- ==== Sys2Proof/Machine/State.lean ====
section
/-! DEFINITION. The state of the machine: the engine's (spec/10_state.md R21), the HOST agent's script, and the model's
own fields. Plain data throughout. -/

namespace Sys2Proof.Machine

/-- The fault codes of STATUS.ERR (spec/60_exceptions.md R241). The codes 6 and 7 are never produced (U8). -/
inductive Err
  | none
  | illcmd
  | len
  | nokey
  | empty
  | grange
deriving DecidableEq, Repr

/-- The fields of STATUS (spec/10_state.md R24). Bits 3 and 7 hold no state: they read 0 and a write ignores its value. -/
structure Status where
  busy : Bool
  done : Bool
  keyv : Bool
  err  : Err
deriving DecidableEq, Repr

/-- The scratch registers (spec/10_state.md R26, R27): per-command locals, not host-visible. -/
structure Scratch where
  st1   : Byte
  st2   : Byte
  cur   : Byte
  k     : Nat
  i     : Nat
  j     : Nat
  hash  : Byte
  state : Byte
  gx    : Byte
  gs    : Byte
  ctr   : Nat
  gi    : Nat
  x     : Byte
  t     : Byte
  riv   : Byte
  p     : Byte
  rst   : Byte
  seq   : Fin 4
deriving DecidableEq, Repr

/-- A byte memory: the cells written since the unspecified state was last drawn, addresses strictly rising. An index
that is not listed has no written byte; what the engine or the host reads there is a free value (log 6). -/
abbrev Memory := List Host.Cell

/-- The two agents (spec/10_state.md R20). -/
inductive Agent
  | engine
  | host
deriving DecidableEq, Repr

/-- Everything the spec gives one engine, and what the HOST agent is about to do. -/
structure State where
  /-- PW_MAX and DATA_MAX (spec/00_scope.md R6): configuration, changed by no step (log 4). -/
  params  : Params
  /-- CSR 1, STATUS (R24). -/
  status  : Status
  /-- CSR 2, IV (R25). -/
  iv      : Byte
  /-- CSR 3, GHASH (R25). -/
  ghash   : Byte
  /-- CSR 4, PWHASH (R25). -/
  pwhash  : Byte
  /-- CSR 5, LEN (R28). -/
  len     : Nat
  /-- CSR 6, PW1LEN (R29). -/
  pw1len  : Nat
  /-- CSR 7, PW2LEN (R29). -/
  pw2len  : Nat
  /-- PW1 (R30). -/
  pw1     : Memory
  /-- PW2 (R30). -/
  pw2     : Memory
  /-- GAMMA (R30). -/
  gamma   : Memory
  /-- DATA (R30). -/
  data    : Memory
  /-- CMDR, the latched command word (R31). -/
  cmdr    : Byte
  /-- The scratch registers (R26). -/
  scratch : Scratch
  /-- The model's own counter: how often the unspecified state has been drawn again (log 5). -/
  draws   : Nat
  /-- The HOST agent's remaining lines (R100; log 2). -/
  script  : List HostLine
  /-- What the host's reads returned, newest first (R66; log 2). -/
  hostLog : List (Target × Nat)
  /-- The model's own field: whose turns come next (log 1). -/
  turns   : List Agent
deriving DecidableEq, Repr

/-- Why the machine would stop. The spec's own faults are no stops: they are recorded in STATUS.ERR and the machine goes
on (spec/60_exceptions.md R243). -/
inductive Fault
  /-- The engine would access an index outside a space. Raised by `Store.read` and `Store.write`; by R79 no command
  ever raises it, and the model states so. Safe. -/
  | outsideSpace (sp : Space) (idx : Nat)
deriving DecidableEq, Repr

/-- Why the machine has no move. Each but the first is a host move the spec gives no effect. -/
inductive Refusal
  /-- Raised by `exec` for an instruction that has no meaning yet. Safe. -/
  | notModelled (mnemonic : String)
  /-- The host touches a space while BUSY = 1, other than by reading STATUS; raised by `hostRead` and `hostWrite`
  (spec/70_reset_and_hazards.md R290, U3, U5). Safe. -/
  | busyAccess (t : Target)
  /-- The host names an index at or above a space's size or a CSR number above 7; raised by `hostRead` and `hostWrite`
  (spec/20_memory.md R69, U4). Safe. -/
  | noSuchTarget (t : Target)
  /-- The host writes a number above 255 to a byte-wide target, which is no HostWrite (R67 stores a byte there); raised
  by `hostWrite` (log 13). Safe. -/
  | notAByte (t : Target) (v : Nat)
deriving DecidableEq, Repr

/-- The scratch registers as the `n`-th draw leaves them (R37: unspecified; log 7). -/
def Scratch.drawn (n : Nat) : Scratch where
  st1   := Config.drawnByte .st1 n
  st2   := Config.drawnByte .st2 n
  cur   := Config.drawnByte .cur n
  k     := Config.drawnNat .k n
  i     := Config.drawnNat .i n
  j     := Config.drawnNat .j n
  hash  := Config.drawnByte .hash n
  state := Config.drawnByte .state n
  gx    := Config.drawnByte .gx n
  gs    := Config.drawnByte .gs n
  ctr   := Config.drawnNat .ctr n
  gi    := Config.drawnNat .gi n
  x     := Config.drawnByte .x n
  t     := Config.drawnByte .t n
  riv   := Config.drawnByte .riv n
  p     := Config.drawnByte .p n
  rst   := Config.drawnByte .rst n
  seq   := Config.drawnSeq n

/-- The state of spec/10_state.md R37 for given parameters, the unspecified part being the `n`-th draw, with no host
script. -/
def State.afterReset (ps : Params) (n : Nat) : State where
  params  := ps
  status  := { busy := false, done := false, keyv := false, err := .none }
  iv      := Config.drawnByte .iv n
  ghash   := Config.drawnByte .ghash n
  pwhash  := Config.drawnByte .pwhash n
  len     := 0
  pw1len  := 0
  pw2len  := 0
  pw1     := []
  pw2     := []
  gamma   := []
  data    := []
  cmdr    := Config.drawnByte .cmdr n
  scratch := Scratch.drawn n
  draws   := n
  script  := []
  hostLog := []
  turns   := []

/-- The machine right after reset (R37, R280). -/
def State.reset : State := State.afterReset Config.defaultParams 0

end Sys2Proof.Machine
end

