-- ==== Sys2Proof/Machine/Flags.lean ====
section
/-! DEFINITION. The flag-like state: the STATUS byte, the fault codes, the context-valid bit, and the pre-execution
checks.

The engine has no arithmetic flags: no command sets or reads a condition code (spec/10_state.md R32). -/

namespace Sys2Proof.Machine

/-- The code of a fault, bits 6:4 of STATUS (spec/60_exceptions.md R241). -/
def Err.code : Err → BitVec 3
  | .none   => 0
  | .illcmd => 1
  | .len    => 2
  | .nokey  => 3
  | .empty  => 4
  | .grange => 5

/-- What a read of STATUS returns: bit 7 reserved, ERR 6:4, bit 3 reserved, KEYV, DONE, BUSY (spec/10_state.md R24). -/
def Status.byte (st : Status) : Byte :=
  0#1 ++ st.err.code ++ 0#1 ++ BitVec.ofBool st.keyv ++ BitVec.ofBool st.done ++ BitVec.ofBool st.busy

/-- `STATUS.KEYV <- v` (spec/10_state.md R33). -/
def State.setKeyv (s : State) (v : Bool) : State := { s with status := { s.status with keyv := v } }

/-- A host write to this space clears KEYV (spec/10_state.md R30, R33). -/
def Space.ofContext : Space → Bool
  | .gamma | .pw2 => true
  | .pw1 | .data => false

/-- A number of bytes fits a memory: the length is legal (spec/10_state.md R28, R29). -/
def lenFits : Capacity → Nat → Bool
  | .bounded c, n => decide (n ≤ c)
  | .unbounded, _ => true

/-- Commands for which the engine checks PW1LEN (spec/60_exceptions.md R246, check 1). -/
def usesPw1len : Instr → Bool
  | .kgen | .init => true
  | .dgstG | .dgstP | .rnd1E | .rnd1D | .rnd2E | .rnd2D | .rnd3E | .rnd3D | .enc | .dec => false

/-- Commands for which the engine checks PW2LEN (R246, check 2). -/
def usesPw2len : Instr → Bool
  | .dgstP | .rnd3E | .rnd3D | .init | .enc | .dec => true
  | .kgen | .dgstG | .rnd1E | .rnd1D | .rnd2E | .rnd2D => false

/-- Commands for which the engine checks LEN (R246, check 3). -/
def usesLen : Instr → Bool
  | .rnd1E | .rnd1D | .rnd2E | .rnd2D | .rnd3E | .rnd3D | .enc | .dec => true
  | .kgen | .dgstG | .dgstP | .init => false

/-- Commands that need the context (R246, check 4). -/
def usesKey : Instr → Bool
  | .enc | .dec => true
  | .kgen | .dgstG | .dgstP | .rnd1E | .rnd1D | .rnd2E | .rnd2D | .rnd3E | .rnd3D | .init => false

/-- The command that needs a first byte of DATA as its IV (R246, check 5). -/
def usesIvByte : Instr → Bool
  | .dec => true
  | .kgen | .dgstG | .dgstP | .rnd1E | .rnd1D | .rnd2E | .rnd2D | .rnd3E | .rnd3D | .init | .enc => false

/-- The pre-execution checks in their order; the first that fails gives the fault (R246, R251). -/
def precheck (i : Instr) (s : State) : Err :=
  if usesPw1len i && !lenFits s.params.pwMax s.pw1len then .len
  else if usesPw2len i && !lenFits s.params.pwMax s.pw2len then .len
  else if usesLen i && !lenFits s.params.dataMax s.len then .len
  else if usesKey i && !s.status.keyv then .nokey
  else if usesIvByte i && s.len == 0 then .empty
  else .none

end Sys2Proof.Machine
end

