-- ==== Sys2Proof/Machine/Ops.lean ====
section
/-! DEFINITION. The named operations the meanings share: rotates, memory access, fault entry and completion, the loops.

Every access of the engine goes through `Store.read` and `Store.write`, which check the index against the size of the
space: that no command ever leaves a space (spec/20_memory.md R79) is then a statement about the model. -/

namespace Sys2Proof.Machine

/-! ## Rotates -/

/-- Rotate left; the amount counts modulo 8 (spec/00_scope.md R10). -/
def rol8 (v : Byte) (n : Nat) : Byte :=
  if n % 8 = 0 then v else (v <<< (n % 8)) + (v >>> (8 - n % 8))

/-- Rotate right; the amount counts modulo 8 (R10). -/
def ror8 (v : Byte) (n : Nat) : Byte :=
  if n % 8 = 0 then v else (v >>> (n % 8)) + (v <<< (8 - n % 8))

/-! ## Memories -/

/-- The byte written at an index, if one was. -/
def Memory.find : Memory → Nat → Option Byte
  | [], _ => none
  | (k, v) :: rest, a => if a = k then some v else Memory.find rest a

/-- The memory after byte `b` was written at index `a`. -/
def Memory.put : Memory → Nat → Byte → Memory
  | [], a, b => [(a, b)]
  | (k, v) :: rest, a, b =>
    if a < k then (a, b) :: (k, v) :: rest
    else if a = k then (a, b) :: rest
    else (k, v) :: Memory.put rest a b

/-- Every listed address lies above `lo`, and the addresses strictly rise. -/
def Memory.risesFrom : Nat → Memory → Bool
  | _, [] => true
  | lo, (k, _) :: rest => decide (lo ≤ k) && Memory.risesFrom (k + 1) rest

/-- The canonical form: strictly rising addresses. An index that is not listed reads as no written byte, so no entry can
equal what an unlisted index reads as (log 6). -/
def Memory.wf (m : Memory) : Bool := Memory.risesFrom 0 m

/-- An index lies inside a space of this size. -/
def inside : Capacity → Nat → Bool
  | .bounded n, a => decide (a < n)
  | .unbounded, _ => true

/-- Every listed address lies inside a space of this size. -/
def Memory.within (c : Capacity) (m : Memory) : Bool := m.all (fun e => inside c e.1)

/-- The sizes of the four memories (spec/10_state.md R30). -/
def Params.size (ps : Params) : Space → Capacity
  | .pw1 | .pw2 => ps.pwMax
  | .gamma => .bounded Config.gammaLen
  | .data => ps.dataMax

/-- The cells of a space. -/
def State.mem (s : State) : Space → Memory
  | .pw1 => s.pw1
  | .pw2 => s.pw2
  | .gamma => s.gamma
  | .data => s.data

/-- The state with other cells in a space. -/
def State.setMem (s : State) (sp : Space) (m : Memory) : State :=
  match sp with
  | .pw1 => { s with pw1 := m }
  | .pw2 => { s with pw2 := m }
  | .gamma => { s with gamma := m }
  | .data => { s with data := m }

/-- One byte memory as an agent sees it: which space, its size, which draw its unwritten cells come from, its cells. -/
structure Store where
  space : Space
  size  : Capacity
  draw  : Nat
  cells : Memory
deriving DecidableEq, Repr

/-- The store of a space in a state. -/
def State.store (s : State) (sp : Space) : Store :=
  { space := sp, size := Params.size s.params sp, draw := s.draws, cells := s.mem sp }

/-- The byte at an index: the one last written there, else the free value of the cell (R37, U6; log 6). -/
def Store.byteAt (d : Store) (a : Nat) : Byte :=
  match Memory.find d.cells a with
  | some b => b
  | none => Config.drawnCell d.space d.draw a

/-- The byte at an index of a space of a state: the model's read of one byte. -/
def State.byteAt (s : State) (sp : Space) (a : Nat) : Byte := (s.store sp).byteAt a

/-- `MemRead(S, a, 1)` (spec/00_scope.md R11), checked. -/
def Store.read (d : Store) (a : Nat) : Except Fault Byte :=
  if inside d.size a then .ok (d.byteAt a) else .error (.outsideSpace d.space a)

/-- `MemWrite(S, a, 1, v)` (R11), checked. -/
def Store.write (d : Store) (a : Nat) (b : Byte) : Except Fault Store :=
  if inside d.size a then .ok { d with cells := Memory.put d.cells a b } else .error (.outsideSpace d.space a)

/-! ## How a command ends -/

/-- How the body of a command ends: at its end, by `raise` (the writes made so far stay), or at an access outside a
space. -/
inductive Run
  | ok (s : State)
  | raised (e : Err) (s : State)
  | fault (f : Fault)
deriving DecidableEq, Repr

/-- One part of a body after another; a later part does not run after a `raise` (spec/45_controller.md R219). -/
def Run.andThen (r : Run) (f : State → Run) : Run :=
  match r with
  | .ok s => f s
  | .raised e s => .raised e s
  | .fault x => .fault x

/-- Fault entry, the one way a command takes a fault: ERR gets the code, DONE 1, BUSY 0, and nothing more: nothing is
saved, nothing rolled back, KEYV unchanged (spec/60_exceptions.md R243). -/
def State.enterFault (s : State) (e : Err) : State :=
  { s with status := { s.status with busy := false, done := true, err := e } }

/-- Normal completion: ERR 0, DONE 1, BUSY 0, KEYV as the command left it (R242). -/
def State.complete (s : State) : State :=
  { s with status := { s.status with busy := false, done := true, err := .none } }

/-- The return from a fault, the acknowledge: DONE 0, ERR 0, nothing else (spec/10_state.md R24; R253). -/
def State.acknowledge (s : State) : State :=
  { s with status := { s.status with done := false, err := .none } }

/-- The end of a command as an outcome of the machine. -/
def Run.settle : Run → Host.Outcome State Fault Refusal
  | .ok s => .next s.complete
  | .raised e s => .next (s.enterFault e)
  | .fault f => .fault f

/-- A decoded command: the pre-execution checks, then the body, then the end (spec/30_encoding.md R96). -/
def command (i : Instr) (body : State → Run) (s : State) : Host.Outcome State Fault Refusal :=
  match precheck i s with
  | .none => (body s).settle
  | e => .next (s.enterFault e)

/-! ## Loops -/

/-- `for m = a to a + n - 1: acc <- f acc (rd m)`. -/
def foldBytes {σ : Type} (rd : Nat → Except Fault Byte) (f : σ → Byte → σ) : Nat → Nat → σ → Except Fault σ
  | 0, _, acc => .ok acc
  | n + 1, a, acc =>
    match rd a with
    | .error e => .error e
    | .ok b => foldBytes rd f n (a + 1) (f acc b)

/-- What a round does at one position: write a byte with its registers advanced, raise, or leave a space. -/
inductive Pos (σ : Type)
  | write (r : σ) (out : Byte)
  | raise (e : Err) (r : σ)
  | fault (f : Fault)

/-- How a pass over a window ends. -/
inductive Swept (σ : Type)
  | done (r : σ) (d : Store)
  | raised (e : Err) (r : σ) (d : Store)
  | fault (f : Fault)

/-- A round's pass over its window `(off, n)`: positions i = 0 to n - 1 in order, position i being `DATA[off + i]`, read
then written at the same index (spec/20_memory.md R65). The recursion is on `ctr = n - i`, the rounds' countdown
(spec/43_round2.md R173); `body ctr i r b` is the round's work on byte b. -/
def sweep {σ : Type} (body : Nat → Nat → σ → Byte → Pos σ) (off : Nat) : Nat → Nat → σ → Store → Swept σ
  | 0, _, r, d => .done r d
  | ctr + 1, i, r, d =>
    match d.read (off + i) with
    | .error f => .fault f
    | .ok b =>
      match body (ctr + 1) i r b with
      | .fault f => .fault f
      | .raise e r' => .raised e r' d
      | .write r' out =>
        match d.write (off + i) out with
        | .error f => .fault f
        | .ok d' => sweep body off ctr (i + 1) r' d'

end Sys2Proof.Machine
end

