-- ==== Sys2Proof/Machine/Operands.lean ====
section
/-! DEFINITION. The operand forms: the addressing forms of spec/20_memory.md R65 that are more than one indexed byte, and
the direction.

Every other operand of a command is a CSR or `GAMMA[m]`, `DATA[off + i]` read as such. -/

namespace Sys2Proof.Machine

/-- Direction: D = 0 Encrypt, D = 1 Decrypt (spec/30_encoding.md R98). -/
inductive Dir
  | encrypt
  | decrypt
deriving DecidableEq, Repr

/-- `DirByte(D)`: 0x01 or 0xFF (R98). -/
def dirByte : Dir → Byte
  | .encrypt => 0x01
  | .decrypt => 0xFF

/-- `PadByte(S, n, idx)`: the password's byte, zero after its end (spec/00_scope.md R12). -/
def padByte (pw : Store) (n idx : Nat) : Except Fault Byte :=
  if idx < n then pw.read idx else .ok 0x00

/-- `KeyByte(i)` of Round 3: password2 followed by one zero byte, used cyclically (spec/44_round3.md R192). -/
def keyByte (pw2 : Store) (pw2len i : Nat) : Except Fault Byte :=
  if i % (pw2len + 1) < pw2len then pw2.read (i % (pw2len + 1)) else .ok 0x00

/-- Step 1 of Round 2 below the overrun: the raw key byte and the advanced cursor. The test for zero is made once, on
the raw byte, before the digest is added (spec/43_round2.md R171, R172). -/
def gammaCursor (gamma : Store) (gi : Nat) : Except Fault (Byte × Nat) :=
  match gamma.read gi with
  | .error f => .error f
  | .ok x =>
    if x = 0x00 then
      match gamma.read 0 with
      | .error f => .error f
      | .ok x0 => .ok (x0, 1)
    else .ok (x, gi + 1)

end Sys2Proof.Machine
end

