-- ==== Sys2Proof/Machine/Dgu.lean ====
section
/-! DEFINITION. The digest unit (spec/41_digest.md): DGST.G and DGST.P. -/

namespace Sys2Proof.Machine

/-- The two accumulators of a digest (spec/41_digest.md R130). -/
structure DguRegs where
  hash  : Byte
  state : Byte
deriving DecidableEq, Repr

/-- Both accumulators start at 0 (R131, R133). -/
def dguStart : DguRegs := { hash := 0x00, state := 0x00 }

/-- One byte of the gamma digest (R131). -/
def gammaDigestStep (r : DguRegs) (b : Byte) : DguRegs :=
  let hash := r.hash - b
  let state := r.state ^^^ hash
  { hash := (-hash) - state, state := state }

/-- One byte of the password digest (R133). -/
def passwordDigestStep (r : DguRegs) (b : Byte) : DguRegs :=
  let hash := r.hash + b
  let state := r.state - hash
  { hash := hash ^^^ state, state := state ^^^ 0xFF }

/-- The scratch registers with the accumulators replaced. -/
def Scratch.withDgu (x : Scratch) (r : DguRegs) : Scratch := { x with hash := r.hash, state := r.state }

/-- `GHASH <- GammaDigest(GAMMA[0..254])` (R131, R132). -/
def digestGamma (s : State) : Run :=
  match foldBytes (s.store .gamma).read gammaDigestStep Config.gammaLen 0 dguStart with
  | .error f => .fault f
  | .ok r => .ok { s with ghash := r.hash, scratch := s.scratch.withDgu r }

/-- `PWHASH <- PasswordDigest(PW2, PW2LEN)` (R133, R134). -/
def digestPassword (s : State) : Run :=
  match foldBytes (padByte (s.store .pw2) s.pw2len) passwordDigestStep Config.padLen 0 dguStart with
  | .error f => .fault f
  | .ok r => .ok { s with pwhash := r.hash, scratch := s.scratch.withDgu r }

/-- DGST.G (R132). -/
def execDgstG (s : State) : Host.Outcome State Fault Refusal :=
  command .dgstG (fun s => (digestGamma s).andThen fun s => .ok (s.setKeyv false)) s

/-- DGST.P (R134). -/
def execDgstP (s : State) : Host.Outcome State Fault Refusal :=
  command .dgstP (fun s => (digestPassword s).andThen fun s => .ok (s.setKeyv false)) s

end Sys2Proof.Machine
end

