-- ==== Sys2Proof/Machine/Kgu.lean ====
section
/-! DEFINITION. The keystream generator (spec/40_keystream.md): KGEN. -/

namespace Sys2Proof.Machine

/-- The generator's scratch registers (spec/10_state.md R26). -/
structure KguRegs where
  st1 : Byte
  st2 : Byte
  cur : Byte
  k   : Nat
  i   : Nat
  j   : Nat
deriving DecidableEq, Repr

/-- `cur` of one iteration: steps 1 and 2 of R112, from the decremented `st1` and the two source bytes. -/
def kguCur (st1 a b : Byte) : Byte := (0xFF ^^^ (a - b)) ^^^ (st1 - 1)

/-- `st2` after step 5. -/
def kguSt2 (st2 cur : Byte) : Byte := (-(st2 <<< 1)) - cur

/-- `st1` after steps 1, 4 and 6: step 4 rotates RIGHT (spec/90_conflicts.md C1), the decremented `st1`, and takes the
old `st2`; step 6 adds the new `st2`. -/
def kguSt1 (k : Nat) (st1 st2 cur : Byte) : Byte := (ror8 (st1 - 1) (k % 8) ^^^ st2) + kguSt2 st2 cur

/-- `GammaLoad`: `GAMMA[m] <- PadByte(PW1, PW1LEN, m)` for m upward (R111); `n` bytes left, the next at `m`. -/
def gammaLoad (pw : Store) (pwlen : Nat) : Nat → Nat → Store → Except Fault Store
  | 0, _, g => .ok g
  | n + 1, m, g =>
    match padByte pw pwlen m with
    | .error f => .error f
    | .ok b =>
      match g.write m b with
      | .error f => .error f
      | .ok g' => gammaLoad pw pwlen n (m + 1) g'

/-- The recurrence, in place in GAMMA, k counting down to 1 (R112, R113). -/
def kguLoop : Nat → KguRegs → Store → Except Fault (KguRegs × Store)
  | 0, r, g => .ok (r, g)
  | k + 1, r, g =>
    match g.read r.j, g.read (r.j + 1) with
    | .error f, _ => .error f
    | _, .error f => .error f
    | .ok a, .ok b =>
      let cur := kguCur r.st1 a b
      match g.write r.i cur with
      | .error f => .error f
      | .ok g' =>
        kguLoop k
          { st1 := kguSt1 (k + 1) r.st1 r.st2 cur, st2 := kguSt2 r.st2 cur, cur := cur, k := k + 1, i := r.i + 1
            j := r.j + 2 } g'

/-- The body of KGEN without its last line: the load, the initial `st1` and `st2`, the 125 iterations (R112). -/
def kguGenerate (pw : Store) (pwlen : Nat) (r : KguRegs) (g : Store) : Except Fault (KguRegs × Store) :=
  match gammaLoad pw pwlen Config.gammaLen 0 g with
  | .error f => .error f
  | .ok g' =>
    match g'.read 0, g'.read 1 with
    | .error f, _ => .error f
    | _, .error f => .error f
    | .ok a, .ok b =>
      kguLoop Config.genIters { r with st1 := 0xFF ^^^ a, st2 := 0xFF ^^^ b, i := 0, j := 2 } g'

/-- The generator's part of the scratch registers. -/
def Scratch.kgu (x : Scratch) : KguRegs := { st1 := x.st1, st2 := x.st2, cur := x.cur, k := x.k, i := x.i, j := x.j }

/-- The scratch registers with the generator's part replaced. -/
def Scratch.withKgu (x : Scratch) (r : KguRegs) : Scratch :=
  { x with st1 := r.st1, st2 := r.st2, cur := r.cur, k := r.k, i := r.i, j := r.j }

/-- The generator on the state: reads PW1 and PW1LEN, writes GAMMA (R112). -/
def generate (s : State) : Run :=
  match kguGenerate (s.store .pw1) s.pw1len s.scratch.kgu (s.store .gamma) with
  | .error f => .fault f
  | .ok (r, g) => .ok { s with gamma := g.cells, scratch := s.scratch.withKgu r }

/-- KGEN (R112): generate, then `STATUS.KEYV <- 0`. -/
def execKgen (s : State) : Host.Outcome State Fault Refusal :=
  command .kgen (fun s => (generate s).andThen fun s => .ok (s.setKeyv false)) s

end Sys2Proof.Machine
end

