-- ==== Sys2Proof/Machine/Rnd1.lean ====
section
/-! DEFINITION. Round 1 (spec/42_round1.md): RND1.E and RND1.D. -/

namespace Sys2Proof.Machine

/-- Round 1's two reduced bytes (spec/42_round1.md R150). -/
structure Rnd1Regs where
  gx : Byte
  gs : Byte
deriving DecidableEq, Repr

/-- One gamma byte of the precompute: running XOR and running sum (R151). -/
def rnd1Reduce (r : Rnd1Regs) (b : Byte) : Rnd1Regs := { gx := r.gx ^^^ b, gs := r.gs + b }

/-- The byte at position i: XOR, subtract or add, by i mod 3 (R151). -/
def rnd1Byte (r : Rnd1Regs) (i : Nat) (b : Byte) : Byte :=
  if i % 3 = 0 then b ^^^ r.gx
  else if i % 3 = 1 then b - r.gs
  else b + r.gs

/-- Round 1's work at a position: the registers stay. -/
def rnd1Pos (_ctr i : Nat) (r : Rnd1Regs) (b : Byte) : Pos Rnd1Regs := .write r (rnd1Byte r i b)

/-- The scratch registers with Round 1's replaced. -/
def Scratch.withRnd1 (x : Scratch) (r : Rnd1Regs) : Scratch := { x with gx := r.gx, gs := r.gs }

/-- `Round1(off, n, D)` (R151): the precompute over all of GAMMA, the multiplication by the direction byte, the pass. -/
def round1 (off n : Nat) (dir : Dir) (s : State) : Run :=
  match foldBytes (s.store .gamma).read rnd1Reduce Config.gammaLen 0 { gx := 0x00, gs := 0x00 } with
  | .error f => .fault f
  | .ok r =>
    match sweep rnd1Pos off n 0 { r with gs := r.gs * dirByte dir } (s.store .data) with
    | .fault f => .fault f
    | .raised e r d => .raised e { s with data := d.cells, scratch := s.scratch.withRnd1 r }
    | .done r d => .ok { s with data := d.cells, scratch := s.scratch.withRnd1 r }

/-- RND1.E: `Round1(0, LEN, 0)` (R152). -/
def execRnd1E (s : State) : Host.Outcome State Fault Refusal :=
  command .rnd1E (fun s => round1 0 s.len .encrypt s) s

/-- RND1.D: `Round1(0, LEN, 1)` (R153). -/
def execRnd1D (s : State) : Host.Outcome State Fault Refusal :=
  command .rnd1D (fun s => round1 0 s.len .decrypt s) s

end Sys2Proof.Machine
end

