-- ==== Sys2Proof/Machine/Rnd2.lean ====
section
/-! DEFINITION. Round 2 (spec/43_round2.md): RND2.E and RND2.D. -/

namespace Sys2Proof.Machine

/-- Round 2's scratch registers (spec/10_state.md R26). -/
structure Rnd2Regs where
  ctr : Nat
  gi  : Nat
  x   : Byte
  t   : Byte
  riv : Byte
deriving DecidableEq, Repr

/-- `t` of Encrypt, grouped from the left: `(((b ^ riv) + x) ^ x) - x` (spec/43_round2.md R171; spec/90_conflicts.md C2). -/
def rnd2Mix (x riv b : Byte) : Byte := (((b ^^^ riv) + x) ^^^ x) - x

/-- The byte Decrypt writes: `(((t + x) ^ x) - x) ^ riv` (R171). -/
def rnd2Unmix (x riv t : Byte) : Byte := (((t + x) ^^^ x) - x) ^^^ riv

/-- Round 2's work at a position (R171): the overrun check, the key byte, the mix, the rotates with this position's
countdown. The overrun raises before anything is read or written at the position (R176, R249). -/
def rnd2Pos (gamma : Store) (pwh : Byte) (dir : Dir) (ctr _i : Nat) (r : Rnd2Regs) (b : Byte) : Pos Rnd2Regs :=
  if r.gi = 255 then .raise .grange { r with ctr := ctr }
  else
    match gammaCursor gamma r.gi with
    | .error f => .fault f
    | .ok (x0, gi) =>
      let x := x0 + pwh
      match dir with
      | .encrypt =>
        let t := rnd2Mix x r.riv b
        .write { ctr := ctr, gi := gi, x := x, t := t, riv := ror8 r.riv ctr } (ror8 t ctr)
      | .decrypt =>
        let t := rol8 b ctr
        .write { ctr := ctr, gi := gi, x := x, t := t, riv := ror8 r.riv ctr } (rnd2Unmix x r.riv t)

/-- Round 2's registers at the start of a pass: `riv <- iv0`, `gi <- 0`. -/
def Scratch.rnd2Start (x : Scratch) (iv0 : Byte) : Rnd2Regs := { ctr := x.ctr, gi := 0, x := x.x, t := x.t, riv := iv0 }

/-- The scratch registers with Round 2's replaced. -/
def Scratch.withRnd2 (x : Scratch) (r : Rnd2Regs) : Scratch :=
  { x with ctr := r.ctr, gi := r.gi, x := r.x, t := r.t, riv := r.riv }

/-- `Round2(off, n, iv0, pwh, D)` (R171). -/
def round2 (off n : Nat) (iv0 pwh : Byte) (dir : Dir) (s : State) : Run :=
  match sweep (rnd2Pos (s.store .gamma) pwh dir) off n 0 (s.scratch.rnd2Start iv0) (s.store .data) with
  | .fault f => .fault f
  | .raised e r d => .raised e { s with data := d.cells, scratch := s.scratch.withRnd2 r }
  | .done r d => .ok { s with data := d.cells, scratch := s.scratch.withRnd2 r }

/-- RND2.E: `Round2(0, LEN, IV, PWHASH, 0)` (R177). -/
def execRnd2E (s : State) : Host.Outcome State Fault Refusal :=
  command .rnd2E (fun s => round2 0 s.len s.iv s.pwhash .encrypt s) s

/-- RND2.D: `Round2(0, LEN, IV, PWHASH, 1)` (R178). -/
def execRnd2D (s : State) : Host.Outcome State Fault Refusal :=
  command .rnd2D (fun s => round2 0 s.len s.iv s.pwhash .decrypt s) s

end Sys2Proof.Machine
end

