-- ==== Sys2Proof/Machine/Rnd3.lean ====
section
/-! DEFINITION. Round 3 (spec/44_round3.md): RND3.E and RND3.D. -/

namespace Sys2Proof.Machine

/-- Round 3's scratch registers (spec/10_state.md R26). -/
structure Rnd3Regs where
  ctr : Nat
  p   : Byte
  rst : Byte
deriving DecidableEq, Repr

/-- The byte Encrypt writes: `((-((b - p) ^ p)) - p) - rst` (spec/44_round3.md R191). -/
def rnd3Enc (p rst b : Byte) : Byte := ((-((b - p) ^^^ p)) - p) - rst

/-- The byte Decrypt writes: `((((-b) - p) - rst) ^ p) + p` (R191; spec/90_conflicts.md C2). -/
def rnd3Dec (p rst b : Byte) : Byte := ((((-b) - p) - rst) ^^^ p) + p

/-- The state update, the same in both directions (R191). -/
def rnd3Next (ctr : Nat) (p rst : Byte) : Byte := (-(ror8 rst ctr)) ^^^ p

/-- Round 3's work at a position (R191): the byte is computed with the state of before the update. -/
def rnd3Pos (pw2 : Store) (pw2len : Nat) (dir : Dir) (ctr i : Nat) (r : Rnd3Regs) (b : Byte) : Pos Rnd3Regs :=
  match keyByte pw2 pw2len i with
  | .error f => .fault f
  | .ok p =>
    let out := match dir with
      | .encrypt => rnd3Enc p r.rst b
      | .decrypt => rnd3Dec p r.rst b
    .write { ctr := ctr, p := p, rst := rnd3Next ctr p r.rst } out

/-- Round 3's registers at the start of a pass: `rst <- gh`. -/
def Scratch.rnd3Start (x : Scratch) (gh : Byte) : Rnd3Regs := { ctr := x.ctr, p := x.p, rst := gh }

/-- The scratch registers with Round 3's replaced. -/
def Scratch.withRnd3 (x : Scratch) (r : Rnd3Regs) : Scratch := { x with ctr := r.ctr, p := r.p, rst := r.rst }

/-- `Round3(off, n, gh, D)` (R191). -/
def round3 (off n : Nat) (gh : Byte) (dir : Dir) (s : State) : Run :=
  match sweep (rnd3Pos (s.store .pw2) s.pw2len dir) off n 0 (s.scratch.rnd3Start gh) (s.store .data) with
  | .fault f => .fault f
  | .raised e r d => .raised e { s with data := d.cells, scratch := s.scratch.withRnd3 r }
  | .done r d => .ok { s with data := d.cells, scratch := s.scratch.withRnd3 r }

/-- RND3.E: `Round3(0, LEN, GHASH, 0)` (R194). -/
def execRnd3E (s : State) : Host.Outcome State Fault Refusal :=
  command .rnd3E (fun s => round3 0 s.len s.ghash .encrypt s) s

/-- RND3.D: `Round3(0, LEN, GHASH, 1)` (R195). -/
def execRnd3D (s : State) : Host.Outcome State Fault Refusal :=
  command .rnd3D (fun s => round3 0 s.len s.ghash .decrypt s) s

end Sys2Proof.Machine
end

