-- ==== Sys2Proof/Machine/Ctl.lean ====
section
/-! DEFINITION. The composition controller (spec/45_controller.md): INIT, ENC and DEC.

It adds no arithmetic: it runs the units in a fixed order, stepping the stage index `seq` (R210, R212). -/

namespace Sys2Proof.Machine

/-- `seq <- n` (spec/10_state.md R27). -/
def State.atStage (s : State) (n : Fin 4) : State := { s with scratch := { s.scratch with seq := n } }

/-- INIT's body (R211). -/
def initBody (s : State) : Run :=
  (generate (s.atStage 0)).andThen fun s =>
  (digestGamma (s.atStage 1)).andThen fun s =>
  (digestPassword (s.atStage 2)).andThen fun s =>
  .ok ((s.atStage 3).setKeyv true)

/-- ENC's body (R213): Rounds 1, 2, 3 forward over `DATA[0..LEN-1]`. -/
def encBody (s : State) : Run :=
  (round1 0 s.len .encrypt (s.atStage 0)).andThen fun s =>
  (round2 0 s.len s.iv s.pwhash .encrypt (s.atStage 1)).andThen fun s =>
  (round3 0 s.len s.ghash .encrypt (s.atStage 2)).andThen fun s =>
  .ok (s.atStage 3)

/-- DEC's body (R214): the IV is `DATA[0]`, read first; Rounds 3, 2, 1 inverse over `DATA[1..LEN-1]`. -/
def decBody (s : State) : Run :=
  match (s.store .data).read 0 with
  | .error f => .fault f
  | .ok iv0 =>
    (round3 1 (s.len - 1) s.ghash .decrypt (s.atStage 0)).andThen fun s =>
    (round2 1 (s.len - 1) iv0 s.pwhash .decrypt (s.atStage 1)).andThen fun s =>
    (round1 1 (s.len - 1) .decrypt (s.atStage 2)).andThen fun s =>
    .ok (s.atStage 3)

/-- INIT (R211). -/
def execInit (s : State) : Host.Outcome State Fault Refusal := command .init initBody s

/-- ENC (R213). -/
def execEnc (s : State) : Host.Outcome State Fault Refusal := command .enc encBody s

/-- DEC (R214). -/
def execDec (s : State) : Host.Outcome State Fault Refusal := command .dec decBody s

end Sys2Proof.Machine
end

