-- ==== Sys2Proof/Machine/Dispatch.lean ====
section
/-! DEFINITION. One arm per command, each one direct call of its meaning. -/

namespace Sys2Proof.Machine

def exec (i : Instr) (s : State) : Host.Outcome State Fault Refusal :=
  match i with
  | .kgen => Sys2Proof.Machine.execKgen s
  | .dgstG => Sys2Proof.Machine.execDgstG s
  | .dgstP => Sys2Proof.Machine.execDgstP s
  | .rnd1E => Sys2Proof.Machine.execRnd1E s
  | .rnd1D => Sys2Proof.Machine.execRnd1D s
  | .rnd2E => Sys2Proof.Machine.execRnd2E s
  | .rnd2D => Sys2Proof.Machine.execRnd2D s
  | .rnd3E => Sys2Proof.Machine.execRnd3E s
  | .rnd3D => Sys2Proof.Machine.execRnd3D s
  | .init => Sys2Proof.Machine.execInit s
  | .enc => Sys2Proof.Machine.execEnc s
  | .dec => Sys2Proof.Machine.execDec s

end Sys2Proof.Machine
end

