-- ==== Sys2Proof/Machine/Engine.lean ====
section
/-! DEFINITION. The ENGINE agent's step (spec/30_encoding.md R96). -/

namespace Sys2Proof.Machine

/-- An accepted CMD write: `CMDR <- w`, `DONE <- 0`, `BUSY <- 1`, and nothing else (spec/30_encoding.md R95). -/
def State.latch (s : State) (w : Byte) : State :=
  { s with cmdr := w, status := { s.status with busy := true, done := false } }

/-- The engine's step: while BUSY = 1 it performs the whole latched command, a word that is no command raising
ERR_ILLCMD first (R96, spec/60_exceptions.md R245); while BUSY = 0 it has no enabled step and does nothing (R265;
log 3). -/
def engineStep (s : State) : Host.Outcome State Fault Refusal :=
  if s.status.busy then
    match decode s.cmdr with
    | .ok i => exec i s
    | .error _ => .next (s.enterFault .illcmd)
  else .next s

end Sys2Proof.Machine
end

