-- ==== Sys2Proof/Machine/Host.lean ====
section
/-! DEFINITION. The HOST agent's step: reads, writes, reset and the script lines (spec/20_memory.md R66 to R69;
spec/30_encoding.md R95, R100). -/

namespace Sys2Proof.Machine

/-- The target exists: a CSR numbered 0 to 7, or an index below the size of its space (spec/20_memory.md R69). -/
def Target.exists (ps : Params) : Target → Bool
  | .csr no => decide (no < 8)
  | .mem sp a => inside (Params.size ps sp) a

/-- A number that may be written to the target: any number to a length register, a byte to everything else (R67). -/
def Target.holds : Target → Nat → Bool
  | .csr 5, _ | .csr 6, _ | .csr 7, _ => true
  | _, v => decide (v < 256)

/-- What a read of the target returns (R66; spec/10_state.md R22, R23, R24): CMD reads 0x00. -/
def hostValue (s : State) : Target → Nat
  | .csr 1 => s.status.byte.toNat
  | .csr 2 => s.iv.toNat
  | .csr 3 => s.ghash.toNat
  | .csr 4 => s.pwhash.toNat
  | .csr 5 => s.len
  | .csr 6 => s.pw1len
  | .csr 7 => s.pw2len
  | .csr _ => 0
  | .mem sp a => (s.byteAt sp a).toNat

/-- The host may touch the target now: anything while idle, and STATUS may be read at any time (R68). -/
def mayRead (s : State) (t : Target) : Bool := !s.status.busy || t == .STATUS

/-- HostRead: the value goes to the host's log and nothing else changes (R66). -/
def hostRead (t : Target) (s : State) : Host.Outcome State Fault Refusal :=
  if !mayRead s t then .refused (.busyAccess t)
  else if !t.exists s.params then .refused (.noSuchTarget t)
  else .next { s with hostLog := (t, hostValue s t) :: s.hostLog }

/-- A write of w to CMD while idle: ignored while a fault waits for its acknowledge, else accepted
(spec/30_encoding.md R95). -/
def writeCmd (w : Byte) (s : State) : State := if s.status.err = .none then s.latch w else s

/-- The effect of a legal host write (R67): the stored value, and the side effects on CMD, STATUS and KEYV. -/
def hostStore (t : Target) (v : Nat) (s : State) : State :=
  match t with
  | .csr 0 => writeCmd (BitVec.ofNat 8 v) s
  | .csr 1 => s.acknowledge
  | .csr 2 => { s with iv := BitVec.ofNat 8 v }
  | .csr 3 => ({ s with ghash := BitVec.ofNat 8 v } : State).setKeyv false
  | .csr 4 => ({ s with pwhash := BitVec.ofNat 8 v } : State).setKeyv false
  | .csr 5 => { s with len := v }
  | .csr 6 => { s with pw1len := v }
  | .csr 7 => ({ s with pw2len := v } : State).setKeyv false
  | .csr _ => s
  | .mem sp a =>
    let s' := s.setMem sp (Memory.put (s.mem sp) a (BitVec.ofNat 8 v))
    if Space.ofContext sp then s'.setKeyv false else s'

/-- HostWrite (R67), refused while BUSY (R68, R290), outside a space (R69), and for a number that is no byte where a
byte is stored (log 13). -/
def hostWrite (t : Target) (v : Nat) (s : State) : Host.Outcome State Fault Refusal :=
  if s.status.busy then .refused (.busyAccess t)
  else if !t.exists s.params then .refused (.noSuchTarget t)
  else if !t.holds v then .refused (.notAByte t v)
  else .next (hostStore t v s)

/-- The reset event (spec/70_reset_and_hazards.md R280, R281): the state of spec/10_state.md R37 in one step, whatever the
engine is doing, the unspecified part drawn again. The parameters and the host's own state stay. -/
def resetEvent (s : State) : State :=
  { State.afterReset s.params (s.draws + 1) with script := s.script, hostLog := s.hostLog, turns := s.turns }

/-- One primitive line (spec/30_encoding.md R100), already taken from the script; a `wait` whose read finds BUSY = 1
stands first in the script again. -/
def hostLine (l : HostLine) (s : State) : Host.Outcome State Fault Refusal :=
  match l with
  | .wr t v => hostWrite t v s
  | .rd t => hostRead t s
  | .cmd m => hostWrite .CMD (encode m).toNat s
  | .ack => hostWrite .STATUS 0 s
  | .reset => .next (resetEvent s)
  | .wait => hostRead .STATUS (if s.status.busy then { s with script := .wait :: s.script } else s)

/-- The HOST agent's step: its next line, or nothing when its script is over (R100). A script is a fixed list of lines, in
which `wait` alone depends on a value read: how a host branches on a test of ERR (spec/45_controller.md R221), for which
R100 has no line, is left to which lines stand in the script (DESIGN CHOICE, log 25). -/
def hostStep (s : State) : Host.Outcome State Fault Refusal :=
  match s.script with
  | [] => .next s
  | l :: rest => hostLine l { s with script := rest }

/-- A primitive line names a host move at all, whatever the engine is doing: its target exists and can hold the value. -/
def HostLine.wf (ps : Params) : HostLine → Bool
  | .wr t v => t.exists ps && t.holds v
  | .rd t => t.exists ps
  | .cmd _ | .wait | .ack | .reset => true

/-- A script with its pseudo-lines expanded, placed as what the host does next. -/
def State.withScript (s : State) (ls : List ScriptLine) : State := { s with script := expandScript ls }

end Sys2Proof.Machine
end

