-- ==== Sys2Proof/Machine/Step.lean ====
section
/-! DEFINITION. One step of the machine: the agent whose turn it is moves (spec/10_state.md R20). -/

namespace Sys2Proof.Machine

/-- Whose turn it is: the next of the turns the state names; when it names none, the engine while BUSY = 1 and the host
while it is idle (log 1). -/
def State.nextAgent (s : State) : Agent :=
  match s.turns with
  | a :: _ => a
  | [] => if s.status.busy then .engine else .host

/-- The state with that turn taken. -/
def State.tookTurn (s : State) : State := { s with turns := s.turns.tail }

/-- One step of the machine. -/
def step (s : State) : Host.Outcome State Fault Refusal :=
  match s.nextAgent with
  | .engine => engineStep s.tookTurn
  | .host => hostStep s.tookTurn

/-- The state with a command word latched and the next turn the engine's. The engine fetches from no memory
(spec/10_state.md R27): its next command is the byte in CMDR while BUSY = 1, so this is the effect of an accepted CMD
write (spec/30_encoding.md R95; log 17). -/
def State.withFetchWord (s : State) (nbits w : Nat) : State :=
  { s.latch (BitVec.ofNat 8 (w % 2 ^ nbits)) with turns := .engine :: s.turns }

end Sys2Proof.Machine
end

