-- ==== Sys2Proof/Safety.lean ====
section
/-! DEFINITION. The terms of the claims: the spec's functions on whole sequences, the invariant of the machine, and which
state a command reads.

The functions here are written from the rules a second time, as functions of an index or in the closed forms the spec
derives, with no memory, no loop state and no in-place update: a claim compares the machine with them. A sequence is a
function from index to byte. -/

namespace Sys2Proof.Safety

open Sys2Proof.Machine

/-! ## Keystream generator and digests -/

/-- The password at indices 0 up, zeros after it (spec/00_scope.md R12). -/
def padded (pw : Nat → Byte) (n m : Nat) : Byte := if m < n then pw m else 0x00

/-- `(st1, st2)` of the generator before iteration n, reading only the padded password (spec/40_keystream.md R112, R113;
spec/20_memory.md R80). In iteration n, `k = 125 - n` and the source bytes are 2n + 2 and 2n + 3. -/
def genRegs (pad : Nat → Byte) : Nat → Byte × Byte
  | 0 => (0xFF ^^^ pad 0, 0xFF ^^^ pad 1)
  | n + 1 =>
    let st1 := (genRegs pad n).1 - 1
    let st2 := (genRegs pad n).2
    let cur := (0xFF ^^^ (pad (2 * n + 2) - pad (2 * n + 3))) ^^^ st1
    let st2' := (-(st2 <<< 1)) - cur
    ((ror8 st1 (125 - n) ^^^ st2) + st2', st2')

/-- The byte iteration n writes (R112, step 2). -/
def genByte (pad : Nat → Byte) (n : Nat) : Byte :=
  (0xFF ^^^ (pad (2 * n + 2) - pad (2 * n + 3))) ^^^ ((genRegs pad n).1 - 1)

/-- `Gamma(pw)` (R118): 125 generated bytes, then the tail of the padded password (R114). -/
def gammaOf (pad : Nat → Byte) (m : Nat) : Byte := if m < 125 then genByte pad m else pad m

/-- `(hash, state)` of the gamma digest after m bytes (spec/41_digest.md R131). -/
def gammaDigestRegs (g : Nat → Byte) : Nat → Byte × Byte
  | 0 => (0x00, 0x00)
  | m + 1 =>
    let hash := (gammaDigestRegs g m).1 - g m
    let state := (gammaDigestRegs g m).2 ^^^ hash
    ((-hash) - state, state)

/-- `GammaDigest(g)` (R131). -/
def gammaDigest (g : Nat → Byte) : Byte := (gammaDigestRegs g 255).1

/-- `(hash, state)` of the password digest after m bytes of the padded password (spec/41_digest.md R133). -/
def passwordDigestRegs (pad : Nat → Byte) : Nat → Byte × Byte
  | 0 => (0x00, 0x00)
  | m + 1 =>
    let hash := (passwordDigestRegs pad m).1 + pad m
    let state := (passwordDigestRegs pad m).2 - hash
    (hash ^^^ state, state ^^^ 0xFF)

/-- `PasswordDigest` (R133). -/
def passwordDigest (pad : Nat → Byte) : Byte := (passwordDigestRegs pad 255).1

/-! ## Round 1 -/

/-- The XOR of the first n bytes (spec/42_round1.md R151). -/
def xorOf (g : Nat → Byte) : Nat → Byte
  | 0 => 0x00
  | n + 1 => xorOf g n ^^^ g n

/-- The sum of the first n bytes, modulo 256 (R151). -/
def sumOf (g : Nat → Byte) : Nat → Byte
  | 0 => 0x00
  | n + 1 => sumOf g n + g n

/-- Round 1's output at position i (R151): Decrypt adds where Encrypt subtracts and the other way round. -/
def round1Out (g : Nat → Byte) (dir : Dir) (i : Nat) (b : Byte) : Byte :=
  let gs := match dir with
    | .encrypt => sumOf g 255
    | .decrypt => -(sumOf g 255)
  if i % 3 = 0 then b ^^^ xorOf g 255
  else if i % 3 = 1 then b - gs
  else b + gs

/-! ## Round 2 -/

/-- The smallest index z in 1 to 254 with a zero gamma byte, if there is one (spec/43_round2.md R175). -/
def firstZero (g : Nat → Byte) : Option Nat := (List.range' 1 254).find? (fun z => g z == 0x00)

/-- The raw key byte at position i, the cursor in closed form (R175). -/
def rawKey (g : Nat → Byte) (i : Nat) : Byte :=
  match firstZero g with
  | some z => g (i % z)
  | none => g i

/-- The cursor overruns a window of n bytes: no byte of `GAMMA[1..254]` is zero and n is at least 256 (R176). -/
def overruns (g : Nat → Byte) (n : Nat) : Prop := (∀ z, 1 ≤ z → z ≤ 254 → g z ≠ 0x00) ∧ 256 ≤ n

/-- `n + (n-1) + ... + (n-i+1)`: the sum of the i earlier countdown values (R174). -/
def countdownSum (n : Nat) : Nat → Nat
  | 0 => 0
  | i + 1 => countdownSum n i + (n - i)

/-- The rolling IV at position i in closed form (R174). -/
def ivAt (iv0 : Byte) (n i : Nat) : Byte := ror8 iv0 (countdownSum n i)

/-- Round 2's output at position i of a window of n bytes (R171). -/
def round2Out (g : Nat → Byte) (iv0 pwh : Byte) (dir : Dir) (n i : Nat) (b : Byte) : Byte :=
  let x := rawKey g i + pwh
  match dir with
  | .encrypt => ror8 ((((b ^^^ ivAt iv0 n i) + x) ^^^ x) - x) (n - i)
  | .decrypt => (((rol8 b (n - i) + x) ^^^ x) - x) ^^^ ivAt iv0 n i

/-! ## Round 3 -/

/-- The key sequence: password2 followed by one zero byte, used cyclically (spec/44_round3.md R192). -/
def keyAt (pw2 : Nat → Byte) (n2 i : Nat) : Byte := padded pw2 n2 (i % (n2 + 1))

/-- The rolling state at position i of a window of n bytes (R191, R193). -/
def rstAt (pw2 : Nat → Byte) (n2 : Nat) (gh : Byte) (n : Nat) : Nat → Byte
  | 0 => gh
  | i + 1 => (-(ror8 (rstAt pw2 n2 gh n i) (n - i))) ^^^ keyAt pw2 n2 i

/-- Round 3's output at position i of a window of n bytes (R191). -/
def round3Out (pw2 : Nat → Byte) (n2 : Nat) (gh : Byte) (dir : Dir) (n i : Nat) (b : Byte) : Byte :=
  let p := keyAt pw2 n2 i
  let rst := rstAt pw2 n2 gh n i
  match dir with
  | .encrypt => ((-((b - p) ^^^ p)) - p) - rst
  | .decrypt => ((((-b) - p) - rst) ^^^ p) + p

/-! ## STATUS after a command -/

/-- The status after a command that completed, KEYV being v (spec/60_exceptions.md R242). -/
def completed (v : Bool) : Status := { busy := false, done := true, keyv := v, err := .none }

/-- The status after a command that faulted with code e, KEYV being v (R243). -/
def faulted (e : Err) (v : Bool) : Status := { busy := false, done := true, keyv := v, err := e }

/-! ## Lengths, windows and scratch registers -/

/-- A length is legal: at most the capacity (spec/10_state.md R28, R29). -/
def Fits : Capacity → Nat → Prop
  | .bounded c, n => n ≤ c
  | .unbounded, _ => True

/-- Where the window of a round command begins in DATA: 1 for DEC, whose `DATA[0]` is the IV, 0 for the others
(spec/42_round1.md R152; spec/45_controller.md R213, R214). -/
def windowOff : Instr → Nat
  | .dec => 1
  | _ => 0

/-- How many bytes the window of a round command has: `LEN - 1` for DEC, LEN for the others. -/
def windowLen (i : Instr) (s : State) : Nat :=
  match i with
  | .dec => s.len - 1
  | _ => s.len

/-- The commands that transform DATA. -/
def IsRound (i : Instr) : Prop :=
  i ∈ [Instr.rnd1E, .rnd1D, .rnd2E, .rnd2D, .rnd3E, .rnd3D, .enc, .dec]

/-- `y` differs from `x` only in the scratch registers the command uses (spec/10_state.md R26). -/
def ScratchFrame (i : Instr) (x y : Scratch) : Prop :=
  match i with
  | .kgen => y = { x with st1 := y.st1, st2 := y.st2, cur := y.cur, k := y.k, i := y.i, j := y.j }
  | .dgstG | .dgstP => y = { x with hash := y.hash, state := y.state }
  | .rnd1E | .rnd1D => y = { x with gx := y.gx, gs := y.gs }
  | .rnd2E | .rnd2D => y = { x with ctr := y.ctr, gi := y.gi, x := y.x, t := y.t, riv := y.riv }
  | .rnd3E | .rnd3D => y = { x with ctr := y.ctr, p := y.p, rst := y.rst }
  | .init =>
    y = { x with st1 := y.st1, st2 := y.st2, cur := y.cur, k := y.k, i := y.i, j := y.j, hash := y.hash
                 state := y.state, seq := y.seq }
  | .enc | .dec =>
    y = { x with gx := y.gx, gs := y.gs, ctr := y.ctr, gi := y.gi, x := y.x, t := y.t, riv := y.riv, p := y.p
                 rst := y.rst, seq := y.seq }

/-- The commands are issued one after another: from `s`, the word of each is latched and its command completes. -/
def RunsTo : List Instr → State → State → Prop
  | [], s, t => t = s
  | i :: rest, s, t => ∃ u, exec i (s.latch (encode i)) = .next u ∧ u.status.err = .none ∧ RunsTo rest u t

/-! ## The invariant -/

/-- Every memory is in canonical form and lists no cell outside its space. -/
def MemoriesOk (s : State) : Prop :=
  ∀ sp, Memory.wf (s.mem sp) = true ∧ Memory.within (Params.size s.params sp) (s.mem sp) = true

/-- The context is what INIT builds (spec/10_state.md R34): both digests match, and GAMMA is the generator's output for
some password. -/
def ContextOk (s : State) : Prop :=
  s.ghash = gammaDigest (s.byteAt .gamma) ∧
  s.pwhash = passwordDigest (padded (s.byteAt .pw2) s.pw2len) ∧
  ∃ pw n, ∀ m, m < 255 → s.byteAt .gamma m = gammaOf (padded pw n) m

/-- The invariant of the machine: legal parameters (R6); memories in form; while BUSY = 1, DONE and ERR are 0 (R96); a
fault code stands only with DONE = 1 (R243); while KEYV = 1, the context is valid (R34). -/
def Inv (s : State) : Prop :=
  s.params.wf = true ∧ MemoriesOk s ∧
  (s.status.busy = true → s.status.done = false ∧ s.status.err = .none) ∧
  (s.status.err ≠ .none → s.status.done = true) ∧
  (s.status.keyv = true → ContextOk s)

/-! ## What a command reads -/

/-- Two states hold the same first n bytes in a space. -/
def SameBytes (s t : State) (sp : Space) (n : Nat) : Prop := ∀ a, a < n → s.byteAt sp a = t.byteAt sp a

/-- Two states agree on password1 and its length. -/
def SamePw1 (s t : State) : Prop := s.pw1len = t.pw1len ∧ SameBytes s t .pw1 s.pw1len

/-- Two states agree on password2 and its length. -/
def SamePw2 (s t : State) : Prop := s.pw2len = t.pw2len ∧ SameBytes s t .pw2 s.pw2len

/-- Two states agree on GAMMA. -/
def SameGamma (s t : State) : Prop := SameBytes s t .gamma 255

/-- Two states agree on LEN and on the working buffer. -/
def SameBuffer (s t : State) : Prop := s.len = t.len ∧ SameBytes s t .data s.len

/-- Two states agree on what a command reads: the table of spec/30_encoding.md R92. -/
def SameOperands (i : Instr) (s t : State) : Prop :=
  match i with
  | .kgen => SamePw1 s t
  | .dgstG => SameGamma s t
  | .dgstP => SamePw2 s t
  | .rnd1E | .rnd1D => SameGamma s t ∧ SameBuffer s t
  | .rnd2E | .rnd2D => SameGamma s t ∧ s.iv = t.iv ∧ s.pwhash = t.pwhash ∧ SameBuffer s t
  | .rnd3E | .rnd3D => SamePw2 s t ∧ s.ghash = t.ghash ∧ SameBuffer s t
  | .init => SamePw1 s t ∧ SamePw2 s t
  | .enc =>
    s.status.keyv = t.status.keyv ∧ SameGamma s t ∧ s.iv = t.iv ∧ s.pwhash = t.pwhash ∧ SamePw2 s t ∧
      s.ghash = t.ghash ∧ SameBuffer s t
  | .dec =>
    s.status.keyv = t.status.keyv ∧ SameGamma s t ∧ s.pwhash = t.pwhash ∧ SamePw2 s t ∧ s.ghash = t.ghash ∧
      SameBuffer s t

/-- Two states agree on what a command writes when it completes: the table of R92. -/
def SameResults (i : Instr) (s t : State) : Prop :=
  match i with
  | .kgen => SameGamma s t ∧ s.status.keyv = t.status.keyv
  | .dgstG => s.ghash = t.ghash ∧ s.status.keyv = t.status.keyv
  | .dgstP => s.pwhash = t.pwhash ∧ s.status.keyv = t.status.keyv
  | .init => SameGamma s t ∧ s.ghash = t.ghash ∧ s.pwhash = t.pwhash ∧ s.status.keyv = t.status.keyv
  | .rnd1E | .rnd1D | .rnd2E | .rnd2D | .rnd3E | .rnd3D | .enc | .dec => SameBuffer s t

end Sys2Proof.Safety
end

