-- ==== Sys2Proof/Certificates/Slice0/Obligations.lean ====
section
/-! DEFINITION. The statements about the machine, in the order of the spec's files.

`s.byteAt sp a` is the model's read of the byte at index a of a space. In a statement about a step, `s.tookTurn` is `s`
with the turn of the moving agent taken from the model's own list of turns (log 1). -/

open Sys2Proof Sys2Proof.Machine Sys2Proof.Safety

/-! ## Notation and state -/

/-- R10: the rotates as arithmetic and as moves of bits, and that each undoes the other. -/
def Obligations.RotatesMoveBitsModuloEight : Prop :=
  ∀ (v : Byte) (n : Nat),
    (rol8 v n).toNat = v.toNat * 2 ^ (n % 8) % 256 + v.toNat / 2 ^ (8 - n % 8) ∧
    (ror8 v n).toNat = v.toNat / 2 ^ (n % 8) + v.toNat * 2 ^ (8 - n % 8) % 256 ∧
    (∀ i, i < 8 → (rol8 v n).getLsbD ((i + n) % 8) = v.getLsbD i) ∧
    (∀ i, i < 8 → (ror8 v n).getLsbD i = v.getLsbD ((i + n) % 8)) ∧
    ror8 v n = rol8 v (8 - n % 8) ∧ rol8 (ror8 v n) n = v

/-- R24, R241: where the fields of STATUS stand in the byte a read returns, and the codes of ERR. -/
def Obligations.StatusByteLayout : Prop :=
  ∀ st : Status,
    st.byte.getLsbD 0 = st.busy ∧ st.byte.getLsbD 1 = st.done ∧ st.byte.getLsbD 2 = st.keyv ∧
    st.byte.getLsbD 3 = false ∧ st.byte.getLsbD 7 = false ∧
    (st.byte.extractLsb' 4 3).toNat = match st.err with
      | .none => 0 | .illcmd => 1 | .len => 2 | .nokey => 3 | .empty => 4 | .grange => 5

/-- R37: the control state is zero after reset and CMD reads 0x00. Nothing is said of the unspecified state. -/
def Obligations.ResetClearsTheControlState : Prop :=
  State.reset.status = { busy := false, done := false, keyv := false, err := .none } ∧
  State.reset.status.byte = 0x00 ∧ hostValue State.reset .CMD = 0 ∧
  State.reset.len = 0 ∧ State.reset.pw1len = 0 ∧ State.reset.pw2len = 0

/-- R33: what sets KEYV, what clears it, and that nothing else changes it, over every step of either agent; ENC and DEC
complete only where it is set. -/
def Obligations.KeyvChangesOnlyAsTheContextDoes : Prop :=
  ∀ s t : State, step s = .next t →
    let ran (w : Byte) : Prop :=
      s.nextAgent = .engine ∧ s.status.busy = true ∧ s.cmdr = w ∧ t.status.err = .none
    let line (l : HostLine) : Prop := s.nextAgent = .host ∧ s.script.head? = some l
    let cleared : Prop := ran 0x10 ∨ ran 0x20 ∨ ran 0x22 ∨ line .reset ∨
      ∃ v, line (.wr .GHASH v) ∨ line (.wr .PWHASH v) ∨ line (.wr .PW2LEN v) ∨
        ∃ a, line (.wr (.mem .gamma a) v) ∨ line (.wr (.mem .pw2 a) v)
    (ran 0x60 → t.status.keyv = true) ∧
    (cleared → t.status.keyv = false) ∧
    (¬ ran 0x60 → ¬ cleared → t.status.keyv = s.status.keyv) ∧
    (ran 0x62 ∨ ran 0x63 → s.status.keyv = true)

/-! ## Host access -/

/-- R66: a read returns the byte or the register and changes nothing but the host's own log. -/
def Obligations.HostReadsReturnTheValueAndChangeNothing : Prop :=
  ∀ (s : State) (t : Target) (rest : List HostLine),
    s.nextAgent = .host → s.script = .rd t :: rest → t.exists s.params = true →
    (s.status.busy = false ∨ t = .STATUS) →
    ∃ v, step s = .next { s.tookTurn with script := rest, hostLog := (t, v) :: s.hostLog } ∧
      (t = .CMD → v = 0) ∧ (t = .STATUS → v = s.status.byte.toNat) ∧ (t = .IV → v = s.iv.toNat) ∧
      (t = .GHASH → v = s.ghash.toNat) ∧ (t = .PWHASH → v = s.pwhash.toNat) ∧ (t = .LEN → v = s.len) ∧
      (t = .PW1LEN → v = s.pw1len) ∧ (t = .PW2LEN → v = s.pw2len) ∧
      ∀ sp a, t = .mem sp a → v = (s.byteAt sp a).toNat

/-- R67: a write stores its value and has the listed side effects and no other. -/
def Obligations.HostWritesStoreTheirValueWithListedSideEffects : Prop :=
  ∀ (s : State) (t : Target) (v : Nat) (rest : List HostLine),
    s.nextAgent = .host → s.script = .wr t v :: rest → s.status.busy = false → t.exists s.params = true →
    t.holds v = true →
    let u : State := { s.tookTurn with script := rest }
    (t = .CMD → s.status.err = .none →
      step s = .next { u with cmdr := BitVec.ofNat 8 v, status := { s.status with busy := true, done := false } }) ∧
    (t = .CMD → s.status.err ≠ .none → step s = .next u) ∧
    (t = .STATUS → step s = .next { u with status := { s.status with done := false, err := .none } }) ∧
    (t = .IV → step s = .next { u with iv := BitVec.ofNat 8 v }) ∧
    (t = .GHASH → step s = .next { u with ghash := BitVec.ofNat 8 v, status := { s.status with keyv := false } }) ∧
    (t = .PWHASH → step s = .next { u with pwhash := BitVec.ofNat 8 v, status := { s.status with keyv := false } }) ∧
    (t = .LEN → step s = .next { u with len := v }) ∧
    (t = .PW1LEN → step s = .next { u with pw1len := v }) ∧
    (t = .PW2LEN → step s = .next { u with pw2len := v, status := { s.status with keyv := false } }) ∧
    ∀ sp a, t = .mem sp a → ∃ w, step s = .next w ∧ w.byteAt sp a = BitVec.ofNat 8 v ∧
      (∀ sp' a', (sp', a') ≠ (sp, a) → w.byteAt sp' a' = s.byteAt sp' a') ∧
      w = { u with pw1 := w.pw1, pw2 := w.pw2, gamma := w.gamma, data := w.data
                   status := { s.status with keyv := if sp = .gamma ∨ sp = .pw2 then false else s.status.keyv } }

/-- R68: while BUSY = 1 the host has no move on any space but reading STATUS. -/
def Obligations.HostTouchesNothingButStatusWhileBusy : Prop :=
  ∀ (s : State) (rest : List HostLine), s.nextAgent = .host → s.status.busy = true →
    (∀ t v, s.script = .wr t v :: rest → step s = .refused (.busyAccess t)) ∧
    (∀ t, t ≠ .STATUS → s.script = .rd t :: rest → step s = .refused (.busyAccess t)) ∧
    (∀ m, s.script = .cmd m :: rest → step s = .refused (.busyAccess .CMD)) ∧
    (s.script = .ack :: rest → step s = .refused (.busyAccess .STATUS)) ∧
    (s.script = .rd .STATUS :: rest →
      step s = .next { s.tookTurn with script := rest, hostLog := (.STATUS, s.status.byte.toNat) :: s.hostLog })

/-- R69: a CSR number above 7, and an index at or above the size of a memory, are refused. -/
def Obligations.HostHasNoMoveOutsideTheSpaces : Prop :=
  ∀ (s : State) (t : Target) (v : Nat) (rest : List HostLine),
    s.nextAgent = .host → s.status.busy = false →
    ((∃ no, t = .csr no ∧ 8 ≤ no) ∨ (∃ a, t = .mem .gamma a ∧ 255 ≤ a) ∨
      (∃ a n, (t = .mem .pw1 a ∨ t = .mem .pw2 a) ∧ s.params.pwMax = .bounded n ∧ n ≤ a) ∨
      (∃ a n, t = .mem .data a ∧ s.params.dataMax = .bounded n ∧ n ≤ a)) →
    (s.script = .rd t :: rest → step s = .refused (.noSuchTarget t)) ∧
    (s.script = .wr t v :: rest → step s = .refused (.noSuchTarget t))

/-! ## Encoding, accepting and decoding -/

/-- Decoding what the encoder gives is the command, for all twelve. -/
def Obligations.EncodedCommandsDecode : Prop := ∀ i : Instr, i.wf = true ∧ decode (encode i) = .ok i

/-- R93: a command word selects a command when all eight bits equal the match value. -/
def Obligations.OpcodeMapSelectsTwelveCommands : Prop :=
  ∀ (w : Byte) (i : Instr), decode w = .ok i ↔
    (w, i) ∈ ([(0x10, .kgen), (0x20, .dgstG), (0x22, .dgstP), (0x30, .rnd1E), (0x31, .rnd1D), (0x40, .rnd2E),
      (0x41, .rnd2D), (0x50, .rnd3E), (0x51, .rnd3D), (0x60, .init), (0x62, .enc), (0x63, .dec)] :
        List (Byte × Instr))

/-- R91: the legal fields, computed from the number of the byte: UNIT is bits 7:4, FN bits 3:1, D bit 0. -/
def Obligations.FormatCFieldsNameTheCommands : Prop :=
  ∀ w : Byte,
    let unit := w.toNat / 16
    let fn := w.toNat / 2 % 8
    let d := w.toNat % 2
    (∃ i, decode w = .ok i) ↔
      (1 ≤ unit ∧ unit ≤ 6) ∧ (fn = 0 ∨ (fn = 1 ∧ (unit = 2 ∨ unit = 6))) ∧
        (d = 0 ∨ ¬ (unit = 1 ∨ unit = 2 ∨ (unit = 6 ∧ fn = 0)))

/-- R101: the list of R94, range by range, is exactly the bytes that decode to no command, and each value of R93 decodes
to its command. -/
def Obligations.EveryByteIsOneCommandOrIllegal : Prop :=
  (∀ w : Byte,
    let n := w.toNat
    (n ≤ 0x0F ∨ (0x11 ≤ n ∧ n ≤ 0x1F) ∨ n = 0x21 ∨ (0x23 ≤ n ∧ n ≤ 0x2F) ∨ (0x32 ≤ n ∧ n ≤ 0x3F) ∨
      (0x42 ≤ n ∧ n ≤ 0x4F) ∨ (0x52 ≤ n ∧ n ≤ 0x5F) ∨ n = 0x61 ∨ 0x64 ≤ n) ↔ ∃ r, decode w = .error r) ∧
  decode 0x10 = .ok .kgen ∧ decode 0x20 = .ok .dgstG ∧ decode 0x22 = .ok .dgstP ∧
  decode 0x30 = .ok .rnd1E ∧ decode 0x31 = .ok .rnd1D ∧ decode 0x40 = .ok .rnd2E ∧ decode 0x41 = .ok .rnd2D ∧
  decode 0x50 = .ok .rnd3E ∧ decode 0x51 = .ok .rnd3D ∧
  decode 0x60 = .ok .init ∧ decode 0x62 = .ok .enc ∧ decode 0x63 = .ok .dec

/-- R95: a CMD write is refused while busy, ignored while a fault waits, and else accepted; `cmd M` writes M's word. -/
def Obligations.CmdWritesAreAcceptedIgnoredOrRefused : Prop :=
  ∀ (s : State) (w : Byte) (rest : List HostLine), s.nextAgent = .host →
    (s.script = .wr .CMD w.toNat :: rest ∨ ∃ m, w = encode m ∧ s.script = .cmd m :: rest) →
    (s.status.busy = true → step s = .refused (.busyAccess .CMD)) ∧
    (s.status.busy = false → s.status.err ≠ .none → step s = .next { s.tookTurn with script := rest }) ∧
    (s.status.busy = false → s.status.err = .none →
      step s = .next { s.tookTurn with
        script := rest, cmdr := w, status := { s.status with done := false, busy := true } })

/-- The engine's step on a decoded command is that command's meaning. -/
def Obligations.StepRunsTheDecodedCommand : Prop :=
  ∀ (s : State) (i : Instr), s.nextAgent = .engine → s.status.busy = true → decode s.cmdr = .ok i →
    step s = exec i s.tookTurn

/-- A word placed where the engine takes its next command runs as the very next step (model's choice, log 17). -/
def Obligations.PlacedWordRunsNext : Prop :=
  ∀ (s : State) (i : Instr), step (s.withFetchWord 8 (encode i).toNat) = exec i (s.latch (encode i))

/-- With BUSY = 0 the engine has no step: its turn changes nothing of the machine (that the turn passes is the model's
choice, log 3). -/
def Obligations.IdleEngineDoesNothing : Prop :=
  ∀ s : State, s.nextAgent = .engine → s.status.busy = false → step s = .next s.tookTurn

/-- `wait`: a read of STATUS that is repeated until BUSY = 0 is read. That each repetition is one step, the line staying
first in the script meanwhile, is the model's choice (log 11). -/
def Obligations.WaitPollsUntilIdle : Prop :=
  ∀ (s : State) (rest : List HostLine), s.nextAgent = .host → s.script = .wait :: rest →
    step s = .next { s.tookTurn with
      script := if s.status.busy then .wait :: rest else rest
      hostLog := (.STATUS, s.status.byte.toNat) :: s.hostLog }

/-- `lddata b`: after its moves the bytes stand at indices 0 up, LEN is their number, nothing else of DATA changed (with no
other order of the turns named, log 1). -/
def Obligations.LoadDataLineFillsTheBuffer : Prop :=
  ∀ (s : State) (b : List Byte), s.turns = [] → s.status.busy = false → Fits s.params.dataMax b.length →
    s.script = (ScriptLine.lddata b).expand →
    ∃ t, core.run (b.length + 1) s = .next t ∧ t.script = [] ∧ t.len = b.length ∧ t.status = s.status ∧
      (∀ i (h : i < b.length), t.byteAt .data i = b[i]) ∧
      (∀ a, b.length ≤ a → t.byteAt .data a = s.byteAt .data a)

/-- `run M`: on an idle engine with no fault waiting and no other order of the turns (log 1), the line is over after three
steps, the CMD write, the command and the poll that reads BUSY = 0. -/
def Obligations.RunLineEndsInThreeSteps : Prop :=
  ∀ (s : State) (m : Instr) (rest : List HostLine), s.turns = [] → s.status.busy = false → s.status.err = .none →
    s.script = (ScriptLine.run m).expand ++ rest →
    ∃ u, exec m (State.latch { s with script := .wait :: rest } (encode m)) = .next u ∧ u.status.busy = false ∧
      core.run 3 s = .next { u with script := rest, hostLog := (.STATUS, u.status.byte.toNat) :: s.hostLog }

/-! ## Keystream generator -/

/-- R112, R118: KGEN completes, and the in-place generator leaves the pure `Gamma(password1)`. -/
def Obligations.KgenLeavesGammaOfPassword1 : Prop :=
  ∀ s : State, Fits s.params.pwMax s.pw1len →
    ∃ t, exec .kgen s = .next t ∧ t.status = completed false ∧
      ∀ m, m < 255 → t.byteAt .gamma m = gammaOf (padded (s.byteAt .pw1) s.pw1len) m

/-- R114: the tail is the padded password. -/
def Obligations.KgenRetainsTheTail : Prop :=
  ∀ s t : State, exec .kgen s = .next t → t.status.err = .none →
    ∀ m, 125 ≤ m → m ≤ 254 → t.byteAt .gamma m = if m < s.pw1len then s.byteAt .pw1 m else 0x00

/-- R117: what stands at index 255 and above of a long password has no effect. -/
def Obligations.KgenTruncatesLongPasswords : Prop :=
  ∀ s s' t t' : State, 255 ≤ s.pw1len → 255 ≤ s'.pw1len → (∀ m, m < 255 → s.byteAt .pw1 m = s'.byteAt .pw1 m) →
    exec .kgen s = .next t → exec .kgen s' = .next t' → t.status.err = .none → t'.status.err = .none →
    ∀ m, m < 255 → t.byteAt .gamma m = t'.byteAt .gamma m

/-- R116: an empty password1 is legal, whatever PW1 holds; the output starts 01 f7 78 8f and the tail is zero. -/
def Obligations.EmptyPassword1Generates : Prop :=
  ∀ s : State, s.pw1len = 0 → ∃ t, exec .kgen s = .next t ∧ t.status = completed false ∧
    t.byteAt .gamma 0 = 0x01 ∧ t.byteAt .gamma 1 = 0xF7 ∧ t.byteAt .gamma 2 = 0x78 ∧ t.byteAt .gamma 3 = 0x8F ∧
    ∀ m, 125 ≤ m → m ≤ 254 → t.byteAt .gamma m = 0x00

/-! ## Digests -/

/-- R131, R132: DGST.G on every state: GHASH is the gamma digest, KEYV is cleared, and nothing else but the two
accumulators changes. -/
def Obligations.DgstGWritesTheGammaDigest : Prop :=
  ∀ s : State, ∃ h st : Byte, exec .dgstG s = .next { s with
    ghash := gammaDigest (s.byteAt .gamma), status := completed false
    scratch := { s.scratch with hash := h, state := st } }

/-- R133, R134: DGST.P: PWHASH is the password digest of PW2, KEYV is cleared, and nothing else but the two accumulators
changes. -/
def Obligations.DgstPWritesThePasswordDigest : Prop :=
  ∀ s : State, Fits s.params.pwMax s.pw2len → ∃ h st : Byte, exec .dgstP s = .next { s with
    pwhash := passwordDigest (padded (s.byteAt .pw2) s.pw2len), status := completed false
    scratch := { s.scratch with hash := h, state := st } }

/-- R134: an empty password2 gives 0xFE. -/
def Obligations.EmptyPassword2DigestIsFE : Prop :=
  ∀ s : State, s.pw2len = 0 → ∃ t, exec .dgstP s = .next t ∧ t.status = completed false ∧ t.pwhash = 0xFE

/-- R133: what stands at index 255 and above of password2 does not reach its digest. -/
def Obligations.DgstPIgnoresBytesFrom255 : Prop :=
  ∀ s s' t t' : State, 255 ≤ s.pw2len → 255 ≤ s'.pw2len → (∀ m, m < 255 → s.byteAt .pw2 m = s'.byteAt .pw2 m) →
    exec .dgstP s = .next t → exec .dgstP s' = .next t' → t.status.err = .none → t'.status.err = .none →
    t.pwhash = t'.pwhash

/-! ## Round 1 -/

/-- R151, R152, R153: RND1.E and RND1.D complete, each byte changed by its position modulo 3. -/
def Obligations.Rnd1TransformsEachPosition : Prop :=
  ∀ s : State, Fits s.params.dataMax s.len →
    (∃ t, exec .rnd1E s = .next t ∧ t.status = completed s.status.keyv ∧
      ∀ i, i < s.len → t.byteAt .data i = round1Out (s.byteAt .gamma) .encrypt i (s.byteAt .data i)) ∧
    (∃ t, exec .rnd1D s = .next t ∧ t.status = completed s.status.keyv ∧
      ∀ i, i < s.len → t.byteAt .data i = round1Out (s.byteAt .gamma) .decrypt i (s.byteAt .data i))

/-- R154: each direction of Round 1 undoes the other, for every GAMMA and every content. -/
def Obligations.Rnd1DirectionsUndoEachOther : Prop :=
  ∀ s t : State, Fits s.params.dataMax s.len →
    (RunsTo [.rnd1E, .rnd1D] s t → ∀ a, t.byteAt .data a = s.byteAt .data a) ∧
    (RunsTo [.rnd1D, .rnd1E] s t → ∀ a, t.byteAt .data a = s.byteAt .data a) ∧
    (∃ u, RunsTo [.rnd1E, .rnd1D] s u) ∧ ∃ u, RunsTo [.rnd1D, .rnd1E] s u

/-! ## Round 2 -/

/-- R171, R172, R173, R177, R178, with the cursor of R175 and the IV chain of R174 in closed form: RND2.E and RND2.D
complete unless the cursor overruns. -/
def Obligations.Rnd2TransformsEachPosition : Prop :=
  ∀ s : State, Fits s.params.dataMax s.len → ¬ overruns (s.byteAt .gamma) s.len →
    (∃ t, exec .rnd2E s = .next t ∧ t.status = completed s.status.keyv ∧
      ∀ i, i < s.len → t.byteAt .data i =
        round2Out (s.byteAt .gamma) s.iv s.pwhash .encrypt s.len i (s.byteAt .data i)) ∧
    (∃ t, exec .rnd2D s = .next t ∧ t.status = completed s.status.keyv ∧
      ∀ i, i < s.len → t.byteAt .data i =
        round2Out (s.byteAt .gamma) s.iv s.pwhash .decrypt s.len i (s.byteAt .data i))

/-- R179: each direction of Round 2 undoes the other, provided neither faults. -/
def Obligations.Rnd2DirectionsUndoEachOther : Prop :=
  ∀ s t : State,
    (RunsTo [.rnd2E, .rnd2D] s t → ∀ a, t.byteAt .data a = s.byteAt .data a) ∧
    (RunsTo [.rnd2D, .rnd2E] s t → ∀ a, t.byteAt .data a = s.byteAt .data a)

/-- R176: the overrun happens exactly when no byte of GAMMA[1..254] is zero and the window has at least 256 bytes; then
positions 0 to 254 carry the stage's output and the others are untouched. -/
def Obligations.Rnd2OverrunKeepsTheFirst255Positions : Prop :=
  ∀ (s : State) (i : Instr) (dir : Dir), Fits s.params.dataMax s.len →
    (i = .rnd2E ∧ dir = .encrypt) ∨ (i = .rnd2D ∧ dir = .decrypt) →
    ∃ t, exec i s = .next t ∧
      (t.status.err = .grange ↔ (∀ z, 1 ≤ z → z ≤ 254 → s.byteAt .gamma z ≠ 0x00) ∧ 256 ≤ s.len) ∧
      (t.status.err = .grange →
        t.status = faulted .grange s.status.keyv ∧
        (∀ a, a < 255 → t.byteAt .data a =
          round2Out (s.byteAt .gamma) s.iv s.pwhash dir s.len a (s.byteAt .data a)) ∧
        ∀ a, 255 ≤ a → t.byteAt .data a = s.byteAt .data a)

/-! ## Round 3 -/

/-- R191, R192, R193, R194, R195: RND3.E and RND3.D complete. -/
def Obligations.Rnd3TransformsEachPosition : Prop :=
  ∀ s : State, Fits s.params.dataMax s.len → Fits s.params.pwMax s.pw2len →
    (∃ t, exec .rnd3E s = .next t ∧ t.status = completed s.status.keyv ∧
      ∀ i, i < s.len → t.byteAt .data i =
        round3Out (s.byteAt .pw2) s.pw2len s.ghash .encrypt s.len i (s.byteAt .data i)) ∧
    (∃ t, exec .rnd3D s = .next t ∧ t.status = completed s.status.keyv ∧
      ∀ i, i < s.len → t.byteAt .data i =
        round3Out (s.byteAt .pw2) s.pw2len s.ghash .decrypt s.len i (s.byteAt .data i))

/-- R196: each direction of Round 3 undoes the other, unconditionally where the lengths are legal. -/
def Obligations.Rnd3DirectionsUndoEachOther : Prop :=
  ∀ s t : State, Fits s.params.dataMax s.len → Fits s.params.pwMax s.pw2len →
    (RunsTo [.rnd3E, .rnd3D] s t → ∀ a, t.byteAt .data a = s.byteAt .data a) ∧
    (RunsTo [.rnd3D, .rnd3E] s t → ∀ a, t.byteAt .data a = s.byteAt .data a) ∧
    (∃ u, RunsTo [.rnd3E, .rnd3D] s u) ∧ ∃ u, RunsTo [.rnd3D, .rnd3E] s u

/-! ## The controller -/

/-- R211: INIT completes and builds the context. -/
def Obligations.InitBuildsTheContext : Prop :=
  ∀ s : State, Fits s.params.pwMax s.pw1len → Fits s.params.pwMax s.pw2len →
    ∃ t, exec .init s = .next t ∧ t.status = completed true ∧
      (∀ m, m < 255 → t.byteAt .gamma m = gammaOf (padded (s.byteAt .pw1) s.pw1len) m) ∧
      t.ghash = gammaDigest (gammaOf (padded (s.byteAt .pw1) s.pw1len)) ∧
      t.pwhash = passwordDigest (padded (s.byteAt .pw2) s.pw2len)

/-- R213: ENC completes, Rounds 1, 2, 3 forward over the whole window. -/
def Obligations.EncAppliesTheRoundsForward : Prop :=
  ∀ s : State, Fits s.params.dataMax s.len → Fits s.params.pwMax s.pw2len → s.status.keyv = true →
    ¬ overruns (s.byteAt .gamma) s.len →
    ∃ t, exec .enc s = .next t ∧ t.status = completed true ∧
      ∀ i, i < s.len → t.byteAt .data i =
        round3Out (s.byteAt .pw2) s.pw2len s.ghash .encrypt s.len i
          (round2Out (s.byteAt .gamma) s.iv s.pwhash .encrypt s.len i
            (round1Out (s.byteAt .gamma) .encrypt i (s.byteAt .data i)))

/-- R214: DEC completes, Rounds 3, 2, 1 inverse over the remainder, the IV being DATA[0]; DATA[0] is unchanged. -/
def Obligations.DecAppliesTheRoundsBackward : Prop :=
  ∀ s : State, Fits s.params.dataMax s.len → Fits s.params.pwMax s.pw2len → s.status.keyv = true → 1 ≤ s.len →
    ¬ overruns (s.byteAt .gamma) (s.len - 1) →
    ∃ t, exec .dec s = .next t ∧ t.status = completed true ∧ t.byteAt .data 0 = s.byteAt .data 0 ∧
      ∀ i, i < s.len - 1 → t.byteAt .data (1 + i) =
        round1Out (s.byteAt .gamma) .decrypt i
          (round2Out (s.byteAt .gamma) (s.byteAt .data 0) s.pwhash .decrypt (s.len - 1) i
            (round3Out (s.byteAt .pw2) s.pw2len s.ghash .decrypt (s.len - 1) i (s.byteAt .data (1 + i))))

/-- R219: what ENC and DEC leave in DATA when their Round 2 overruns. -/
def Obligations.ComposedOverrunKeepsTheWritesMade : Prop :=
  ∀ s : State, Fits s.params.dataMax s.len → Fits s.params.pwMax s.pw2len → s.status.keyv = true →
    (overruns (s.byteAt .gamma) s.len →
      ∃ t, exec .enc s = .next t ∧ t.status = faulted .grange true ∧
        ∀ i, i < s.len → t.byteAt .data i =
          let b := round1Out (s.byteAt .gamma) .encrypt i (s.byteAt .data i)
          if i < 255 then round2Out (s.byteAt .gamma) s.iv s.pwhash .encrypt s.len i b else b) ∧
    (overruns (s.byteAt .gamma) (s.len - 1) →
      ∃ t, exec .dec s = .next t ∧ t.status = faulted .grange true ∧ t.byteAt .data 0 = s.byteAt .data 0 ∧
        ∀ i, i < s.len - 1 → t.byteAt .data (1 + i) =
          let b := round3Out (s.byteAt .pw2) s.pw2len s.ghash .decrypt (s.len - 1) i (s.byteAt .data (1 + i))
          if i < 255 then
            round2Out (s.byteAt .gamma) (s.byteAt .data 0) s.pwhash .decrypt (s.len - 1) i b
          else b)

/-- R215, first equivalence: INIT leaves what KGEN, DGST.G, DGST.P leave, but for KEYV. -/
def Obligations.InitEqualsTheUnitCommands : Prop :=
  ∀ s t : State, exec .init s = .next t → t.status.err = .none →
    ∃ u, RunsTo [.kgen, .dgstG, .dgstP] s u ∧ (∀ m, m < 255 → t.byteAt .gamma m = u.byteAt .gamma m) ∧
      t.ghash = u.ghash ∧ t.pwhash = u.pwhash ∧ t.status.keyv = true ∧ u.status.keyv = false

/-- R215, second equivalence: ENC leaves in DATA what RND1.E, RND2.E, RND3.E leave. -/
def Obligations.EncEqualsTheStageCommands : Prop :=
  ∀ s t : State, exec .enc s = .next t → t.status.err = .none →
    ∃ u, RunsTo [.rnd1E, .rnd2E, .rnd3E] s u ∧ ∀ a, t.byteAt .data a = u.byteAt .data a

/-- R215, third equivalence: DEC on v ++ c leaves from index 1 what RND3.D, RND2.D, RND1.D leave from index 0 on c with
IV = v. -/
def Obligations.DecEqualsTheStageCommands : Prop :=
  ∀ s c t : State, exec .dec s = .next t → t.status.err = .none →
    c.params = s.params → SameGamma s c → SamePw2 s c → c.ghash = s.ghash → c.pwhash = s.pwhash →
    c.iv = s.byteAt .data 0 → c.len + 1 = s.len → (∀ i, i < c.len → c.byteAt .data i = s.byteAt .data (1 + i)) →
    ∃ u, RunsTo [.rnd3D, .rnd2D, .rnd1D] c u ∧ ∀ i, i < c.len → t.byteAt .data (1 + i) = u.byteAt .data i

/-- R218: under one context, DEC of the framed result of ENC completes and gives the plaintext back, and ENC overruns
exactly when DEC on the framed result would. `f` is any state that holds the same context and the framed buffer. -/
def Obligations.DecOfFramedEncIsThePlaintext : Prop :=
  ∀ s t f w : State, Fits s.params.dataMax (s.len + 1) → Fits s.params.pwMax s.pw2len → s.status.keyv = true →
    exec .enc s = .next t →
    f.params = s.params → f.status.keyv = true → SameGamma s f → SamePw2 s f → f.ghash = s.ghash →
    f.pwhash = s.pwhash → f.len = s.len + 1 → f.byteAt .data 0 = s.iv →
    (∀ i, i < s.len → f.byteAt .data (1 + i) = t.byteAt .data i) →
    exec .dec f = .next w →
    (t.status.err = .none → w.status.err = .none ∧ ∀ i, i < s.len → w.byteAt .data (1 + i) = s.byteAt .data i) ∧
    (t.status.err = .grange ↔ w.status.err = .grange)

/-! ## What a command changes, reads and how it ends -/

/-- The frame of the commands that transform DATA, however they end: DATA inside the window, STATUS without KEYV, the
command's scratch registers, and nothing else. -/
def Obligations.RoundCommandsChangeOnlyTheirWindow : Prop :=
  ∀ (i : Instr) (s t : State), IsRound i → exec i s = .next t →
    t = { s with data := t.data, scratch := t.scratch
                 status := { busy := false, done := true, keyv := s.status.keyv, err := t.status.err } } ∧
    ScratchFrame i s.scratch t.scratch ∧
    (∀ a, ¬ (windowOff i ≤ a ∧ a < windowOff i + windowLen i s) → t.byteAt .data a = s.byteAt .data a) ∧
    ∀ sp a, sp ≠ .data → t.byteAt sp a = s.byteAt sp a

/-- The frame of the commands that build the context, however they end: KGEN and INIT store to GAMMA[0..254], the digests
store to no memory; LEN, IV, the passwords and DATA stay; KEYV becomes what the command says when it completes and stays
when it faults. -/
def Obligations.KeyCommandsChangeOnlyTheirResults : Prop :=
  ∀ (i : Instr) (s t : State), ¬ IsRound i → exec i s = .next t →
    t = { s with gamma := if i = .kgen ∨ i = .init then t.gamma else s.gamma
                 ghash := if i = .dgstG ∨ i = .init then t.ghash else s.ghash
                 pwhash := if i = .dgstP ∨ i = .init then t.pwhash else s.pwhash
                 scratch := t.scratch
                 status := { busy := false, done := true, err := t.status.err
                             keyv := if t.status.err = .none then decide (i = .init) else s.status.keyv } } ∧
    ScratchFrame i s.scratch t.scratch ∧
    (∀ a, 255 ≤ a → t.byteAt .gamma a = s.byteAt .gamma a) ∧
    (i ≠ .kgen → i ≠ .init → ∀ a, t.byteAt .gamma a = s.byteAt .gamma a) ∧
    ∀ sp a, sp ≠ .gamma → t.byteAt sp a = s.byteAt sp a

/-- R217 with the table of R92: two states that agree on what a command reads end alike and agree on what it writes. So
no command depends on a byte beyond its lengths, on a scratch register, and DEC not on the IV register. ENC and DEC leave
the context as it is, so one INIT serves any number of them. -/
def Obligations.ResultsDependOnOperandsOnly : Prop :=
  ∀ (i : Instr) (s t s' t' : State), s.params = t.params → SameOperands i s t →
    exec i s = .next s' → exec i t = .next t' →
    s'.status.err = t'.status.err ∧
    (s'.status.err = .none ∨ s'.status.err = .grange → SameResults i s' t') ∧
    (i = .enc ∨ i = .dec → s'.gamma = s.gamma ∧ s'.ghash = s.ghash ∧ s'.pw2 = s.pw2 ∧ s'.pw2len = s.pw2len ∧
      s'.pwhash = s.pwhash ∧ s'.status.keyv = s.status.keyv)

/-- R246: the pre-execution checks in their order; a fault there changes STATUS and nothing else (R243). -/
def Obligations.ChecksFaultInOrderBeforeAnyWrite : Prop :=
  ∀ (i : Instr) (s : State),
    let badLen : Prop :=
      (i ∈ [Instr.kgen, .init] ∧ ¬ Fits s.params.pwMax s.pw1len) ∨
      (i ∈ [Instr.dgstP, .rnd3E, .rnd3D, .init, .enc, .dec] ∧ ¬ Fits s.params.pwMax s.pw2len) ∨
      (i ∈ [Instr.rnd1E, .rnd1D, .rnd2E, .rnd2D, .rnd3E, .rnd3D, .enc, .dec] ∧ ¬ Fits s.params.dataMax s.len)
    let noKey : Prop := i ∈ [Instr.enc, .dec] ∧ s.status.keyv = false
    let noIv : Prop := i = .dec ∧ s.len = 0
    (badLen → exec i s = .next { s with status := faulted .len s.status.keyv }) ∧
    (¬ badLen → noKey → exec i s = .next { s with status := faulted .nokey s.status.keyv }) ∧
    (¬ badLen → ¬ noKey → noIv → exec i s = .next { s with status := faulted .empty s.status.keyv }) ∧
    (¬ badLen → ¬ noKey → ¬ noIv →
      ∃ t, exec i s = .next t ∧ (t.status.err = .none ∨ t.status.err = .grange))

/-- R79: no command ever leaves a space: every access of the model is checked and none fails, in any state. So every
command ends, with BUSY = 0 and DONE = 1 (R73, R242, R243). -/
def Obligations.NoCommandLeavesItsSpaces : Prop :=
  ∀ (i : Instr) (s : State), ∃ t, exec i s = .next t ∧ t.status.busy = false ∧ t.status.done = true

/-- R249: the cursor overrun is raised by the commands that run Round 2, exactly when their window overruns. -/
def Obligations.OverrunExactlyWhenTheCursorReaches255 : Prop :=
  ∀ (i : Instr) (s t : State), exec i s = .next t →
    (t.status.err = .grange ↔
      i ∈ [Instr.rnd2E, .rnd2D, .enc, .dec] ∧ overruns (s.byteAt .gamma) (windowLen i s) ∧
        Fits s.params.dataMax s.len ∧
        (i = .enc ∨ i = .dec → Fits s.params.pwMax s.pw2len ∧ s.status.keyv = true))

/-- R176, R218: with the GAMMA of a password1 below 255 bytes no window overruns. -/
def Obligations.ShortPasswordsNeverOverrun : Prop :=
  ∀ (s t : State) (n : Nat), s.pw1len < 255 → exec .kgen s = .next t → t.status.err = .none →
    ¬ overruns (t.byteAt .gamma) n

/-- R216, R25, R28, R29, R30: no command writes a length, the IV register or a password, and none touches the host. -/
def Obligations.NoCommandWritesLengthsIvOrPasswords : Prop :=
  ∀ (i : Instr) (s t : State), exec i s = .next t →
    t.len = s.len ∧ t.pw1len = s.pw1len ∧ t.pw2len = s.pw2len ∧ t.iv = s.iv ∧ t.cmdr = s.cmdr ∧
    t.params = s.params ∧ t.script = s.script ∧ t.hostLog = s.hostLog ∧ t.turns = s.turns ∧
    (∀ a, t.byteAt .pw1 a = s.byteAt .pw1 a) ∧ ∀ a, t.byteAt .pw2 a = s.byteAt .pw2 a

/-! ## Faults and reset -/

/-- R245: a word that is no command faults with ERR_ILLCMD and nothing else changes. -/
def Obligations.IllegalCommandFaultsAndChangesNothingElse : Prop :=
  ∀ s : State, s.nextAgent = .engine → s.status.busy = true → (∀ i, s.cmdr ≠ encode i) →
    step s = .next { s.tookTurn with status := faulted .illcmd s.status.keyv }

/-- R253, R24: the acknowledge, by `ack` or by a write of any byte to STATUS, clears DONE and ERR and restores nothing
else; until then a command is ignored. -/
def Obligations.AcknowledgeReturnsToService : Prop :=
  ∀ (s : State) (v : Nat) (rest : List HostLine), s.nextAgent = .host → s.status.busy = false → v < 256 →
    s.script = .ack :: rest ∨ s.script = .wr .STATUS v :: rest →
    step s = .next { s.tookTurn with
      script := rest
      status := { busy := false, done := false, keyv := s.status.keyv, err := .none } }

/-- R280, R281: reset at any time, busy or not: STATUS and the lengths are zero, nothing runs, and the parameters stay.
Nothing is said of the unspecified state. -/
def Obligations.ResetEventClearsTheControlState : Prop :=
  ∀ (s : State) (rest : List HostLine), s.nextAgent = .host → s.script = .reset :: rest →
    ∃ t, step s = .next t ∧ t.status.byte = 0x00 ∧ t.len = 0 ∧ t.pw1len = 0 ∧ t.pw2len = 0 ∧
      t.params = s.params ∧ t.script = rest ∧ t.hostLog = s.hostLog

/-! ## The machine -/

/-- R23, R280: BUSY is set only by a CMD write of the host that is accepted, and cleared only by the end of the command in
the engine's turn or by reset. -/
def Obligations.BusyBeginsWithACmdWriteAndEndsWithTheCommand : Prop :=
  ∀ s t : State, step s = .next t →
    let line (l : HostLine) : Prop := s.nextAgent = .host ∧ s.script.head? = some l
    (s.status.busy = false → t.status.busy = true →
      s.status.err = .none ∧ ((∃ v, line (.wr .CMD v)) ∨ ∃ m, line (.cmd m))) ∧
    (s.status.busy = true → t.status.busy = false → (s.nextAgent = .engine ∧ t.status.done = true) ∨ line .reset)

/-- R253, R280: in every state that meets the invariant, a fault code stays until the acknowledge or reset. -/
def Obligations.FaultStaysUntilAcknowledgeOrReset : Prop :=
  ∀ s t : State, Inv s → step s = .next t → s.status.err ≠ .none →
    let line (l : HostLine) : Prop := s.nextAgent = .host ∧ s.script.head? = some l
    t.status.err = s.status.err ∨ (t.status.err = .none ∧ (line .reset ∨ line .ack ∨ ∃ v, line (.wr .STATUS v)))

/-- The parameters are configuration: no step of either agent changes them. -/
def Obligations.StepKeepsTheParameters : Prop := ∀ s t : State, step s = .next t → t.params = s.params

/-- The invariant holds right after reset (that the parameters are legal rests on the model's choice of them, log 4). -/
def Obligations.ResetMeetsTheInvariant : Prop := Inv State.reset

/-- Every step of either agent keeps the invariant: memories in canonical form and inside their spaces, DONE and ERR zero
while busy, a fault code only with DONE, and, while KEYV = 1, a valid context (R34). -/
def Obligations.StepKeepsTheInvariant : Prop := ∀ s t : State, Inv s → step s = .next t → Inv t
end

