-- ==== Sys2Proof/Laws/Bytes.lean ====
section
/-! SUPPORT. The rotates bit by bit, and the byte identities the rounds' inversions rest on. -/

namespace Sys2Proof.Machine

theorem ror8_getLsbD (v : Byte) (n i : Nat) (hi : i < 8) : (ror8 v n).getLsbD i = v.getLsbD ((i + n) % 8) := by
  unfold ror8
  split
  · congr 1; omega
  · have h8 : n % 8 < 8 := Nat.mod_lt _ (by decide)
    rw [BitVec.add_eq_or_of_and_eq_zero]
    · simp only [BitVec.getLsbD_or, BitVec.getLsbD_ushiftRight, BitVec.getLsbD_shiftLeft]
      by_cases hlt : i < 8 - n % 8
      · simp only [hlt, decide_true, Bool.not_true, Bool.and_false, Bool.false_and, Bool.or_false]
        congr 1; omega
      · rw [BitVec.getLsbD_of_ge v (n % 8 + i) (by omega)]
        simp only [hlt, hi, decide_true, decide_false, Bool.not_false, Bool.true_and, Bool.false_or]
        congr 1; omega
    · ext j hj
      simp only [BitVec.getElem_and, BitVec.getElem_ushiftRight, BitVec.getElem_shiftLeft, BitVec.getElem_zero]
      by_cases hlt : j < 8 - n % 8
      · simp [hlt]
      · rw [BitVec.getLsbD_of_ge v (n % 8 + j) (by omega)]; simp

theorem rol8_getLsbD (v : Byte) (n i : Nat) (hi : i < 8) : (rol8 v n).getLsbD ((i + n) % 8) = v.getLsbD i := by
  unfold rol8
  split
  · congr 1; omega
  · have h8 : n % 8 < 8 := Nat.mod_lt _ (by decide)
    rw [BitVec.add_eq_or_of_and_eq_zero]
    · simp only [BitVec.getLsbD_or, BitVec.getLsbD_ushiftRight, BitVec.getLsbD_shiftLeft]
      by_cases hlt : (i + n) % 8 < n % 8
      · have : ¬ (i + n) % 8 ≥ 8 := by omega
        simp only [hlt, decide_true, Bool.not_true, Bool.and_false, Bool.false_and, Bool.false_or]
        congr 1; omega
      · rw [BitVec.getLsbD_of_ge v (8 - n % 8 + (i + n) % 8) (by omega)]
        have : (i + n) % 8 < 8 := by omega
        simp only [hlt, this, decide_true, decide_false, Bool.not_false, Bool.true_and, Bool.or_false]
        congr 1; omega
    · ext j hj
      simp only [BitVec.getElem_and, BitVec.getElem_ushiftRight, BitVec.getElem_shiftLeft, BitVec.getElem_zero]
      by_cases hlt : j < n % 8
      · simp [hlt]
      · rw [BitVec.getLsbD_of_ge v (8 - n % 8 + j) (by omega)]; simp

theorem byte_ext {v w : Byte} (h : ∀ i, i < 8 → v.getLsbD i = w.getLsbD i) : v = w :=
  BitVec.eq_of_getLsbD_eq fun i hi => h i hi

/-- Rotations compose by adding amounts. -/
theorem ror8_ror8 (v : Byte) (a b : Nat) : ror8 (ror8 v a) b = ror8 v (a + b) := by
  refine byte_ext fun i hi => ?_
  rw [ror8_getLsbD _ _ _ hi, ror8_getLsbD _ _ _ (Nat.mod_lt _ (by decide)), ror8_getLsbD _ _ _ hi]
  congr 1; omega

theorem rol8_ror8 (v : Byte) (n : Nat) : rol8 (ror8 v n) n = v := by
  refine byte_ext fun i hi => ?_
  obtain ⟨j, hj, rfl⟩ : ∃ j, j < 8 ∧ (j + n) % 8 = i := ⟨(i + (8 - n % 8)) % 8, Nat.mod_lt _ (by decide), by omega⟩
  rw [rol8_getLsbD _ _ _ hj, ror8_getLsbD _ _ _ hj]

theorem ror8_rol8 (v : Byte) (n : Nat) : ror8 (rol8 v n) n = v := by
  refine byte_ext fun i hi => ?_
  rw [ror8_getLsbD _ _ _ hi, rol8_getLsbD _ _ _ hi]

@[simp] theorem ror8_zero (v : Byte) : ror8 v 0 = v := rfl

theorem ror8_mod (v : Byte) (n : Nat) : ror8 v (n % 8) = ror8 v n := by
  unfold ror8; rw [Nat.mod_mod]

theorem xor_xor_cancel (a b : Byte) : a ^^^ b ^^^ b = a := by
  rw [BitVec.xor_assoc, BitVec.xor_self, BitVec.xor_zero]

/-- "for a fixed byte x the map f(u) = ((u + x) ^ x) - x is its own inverse" (spec/43_round2.md R179). -/
theorem mix_mix (x u : Byte) : ((((((u + x) ^^^ x) - x) + x) ^^^ x) - x) = u := by
  rw [BitVec.sub_add_cancel, xor_xor_cancel, BitVec.add_sub_cancel]

/-- The three lines of spec/44_round3.md R196. -/
theorem rnd3_undo (p rst b : Byte) :
    ((((-(((-((b - p) ^^^ p)) - p) - rst)) - p) - rst) ^^^ p) + p = b := by
  have h : (-(((-((b - p) ^^^ p)) - p) - rst)) - p - rst = (b - p) ^^^ p := by
    generalize (b - p) ^^^ p = y
    grind
  rw [h, xor_xor_cancel, BitVec.sub_add_cancel]

theorem rnd3_redo (p rst c : Byte) :
    ((-((((((-c) - p - rst) ^^^ p) + p) - p) ^^^ p)) - p) - rst = c := by
  rw [BitVec.add_sub_cancel, xor_xor_cancel]
  grind

end Sys2Proof.Machine
end

