-- ==== Sys2Proof/Laws/State.lean ====
section
/-! SUPPORT. One lemma per field per named update of the state, each true by definition. -/

namespace Sys2Proof.Machine

/-! ## `State.setKeyv` -/

@[simp] theorem State.setKeyv_params (s : State) (v : Bool) : (s.setKeyv v).params = s.params := rfl
@[simp] theorem State.setKeyv_status (s : State) (v : Bool) : (s.setKeyv v).status = { s.status with keyv := v } := rfl
@[simp] theorem State.setKeyv_iv (s : State) (v : Bool) : (s.setKeyv v).iv = s.iv := rfl
@[simp] theorem State.setKeyv_ghash (s : State) (v : Bool) : (s.setKeyv v).ghash = s.ghash := rfl
@[simp] theorem State.setKeyv_pwhash (s : State) (v : Bool) : (s.setKeyv v).pwhash = s.pwhash := rfl
@[simp] theorem State.setKeyv_len (s : State) (v : Bool) : (s.setKeyv v).len = s.len := rfl
@[simp] theorem State.setKeyv_pw1len (s : State) (v : Bool) : (s.setKeyv v).pw1len = s.pw1len := rfl
@[simp] theorem State.setKeyv_pw2len (s : State) (v : Bool) : (s.setKeyv v).pw2len = s.pw2len := rfl
@[simp] theorem State.setKeyv_pw1 (s : State) (v : Bool) : (s.setKeyv v).pw1 = s.pw1 := rfl
@[simp] theorem State.setKeyv_pw2 (s : State) (v : Bool) : (s.setKeyv v).pw2 = s.pw2 := rfl
@[simp] theorem State.setKeyv_gamma (s : State) (v : Bool) : (s.setKeyv v).gamma = s.gamma := rfl
@[simp] theorem State.setKeyv_data (s : State) (v : Bool) : (s.setKeyv v).data = s.data := rfl
@[simp] theorem State.setKeyv_cmdr (s : State) (v : Bool) : (s.setKeyv v).cmdr = s.cmdr := rfl
@[simp] theorem State.setKeyv_scratch (s : State) (v : Bool) : (s.setKeyv v).scratch = s.scratch := rfl
@[simp] theorem State.setKeyv_draws (s : State) (v : Bool) : (s.setKeyv v).draws = s.draws := rfl
@[simp] theorem State.setKeyv_script (s : State) (v : Bool) : (s.setKeyv v).script = s.script := rfl
@[simp] theorem State.setKeyv_hostLog (s : State) (v : Bool) : (s.setKeyv v).hostLog = s.hostLog := rfl
@[simp] theorem State.setKeyv_turns (s : State) (v : Bool) : (s.setKeyv v).turns = s.turns := rfl

/-! ## `State.enterFault` -/

@[simp] theorem State.enterFault_params (s : State) (e : Err) : (s.enterFault e).params = s.params := rfl
@[simp] theorem State.enterFault_status (s : State) (e : Err) : (s.enterFault e).status = { s.status with busy := false, done := true, err := e } := rfl
@[simp] theorem State.enterFault_iv (s : State) (e : Err) : (s.enterFault e).iv = s.iv := rfl
@[simp] theorem State.enterFault_ghash (s : State) (e : Err) : (s.enterFault e).ghash = s.ghash := rfl
@[simp] theorem State.enterFault_pwhash (s : State) (e : Err) : (s.enterFault e).pwhash = s.pwhash := rfl
@[simp] theorem State.enterFault_len (s : State) (e : Err) : (s.enterFault e).len = s.len := rfl
@[simp] theorem State.enterFault_pw1len (s : State) (e : Err) : (s.enterFault e).pw1len = s.pw1len := rfl
@[simp] theorem State.enterFault_pw2len (s : State) (e : Err) : (s.enterFault e).pw2len = s.pw2len := rfl
@[simp] theorem State.enterFault_pw1 (s : State) (e : Err) : (s.enterFault e).pw1 = s.pw1 := rfl
@[simp] theorem State.enterFault_pw2 (s : State) (e : Err) : (s.enterFault e).pw2 = s.pw2 := rfl
@[simp] theorem State.enterFault_gamma (s : State) (e : Err) : (s.enterFault e).gamma = s.gamma := rfl
@[simp] theorem State.enterFault_data (s : State) (e : Err) : (s.enterFault e).data = s.data := rfl
@[simp] theorem State.enterFault_cmdr (s : State) (e : Err) : (s.enterFault e).cmdr = s.cmdr := rfl
@[simp] theorem State.enterFault_scratch (s : State) (e : Err) : (s.enterFault e).scratch = s.scratch := rfl
@[simp] theorem State.enterFault_draws (s : State) (e : Err) : (s.enterFault e).draws = s.draws := rfl
@[simp] theorem State.enterFault_script (s : State) (e : Err) : (s.enterFault e).script = s.script := rfl
@[simp] theorem State.enterFault_hostLog (s : State) (e : Err) : (s.enterFault e).hostLog = s.hostLog := rfl
@[simp] theorem State.enterFault_turns (s : State) (e : Err) : (s.enterFault e).turns = s.turns := rfl

/-! ## `State.complete` -/

@[simp] theorem State.complete_params (s : State) : (s.complete).params = s.params := rfl
@[simp] theorem State.complete_status (s : State) : (s.complete).status = { s.status with busy := false, done := true, err := .none } := rfl
@[simp] theorem State.complete_iv (s : State) : (s.complete).iv = s.iv := rfl
@[simp] theorem State.complete_ghash (s : State) : (s.complete).ghash = s.ghash := rfl
@[simp] theorem State.complete_pwhash (s : State) : (s.complete).pwhash = s.pwhash := rfl
@[simp] theorem State.complete_len (s : State) : (s.complete).len = s.len := rfl
@[simp] theorem State.complete_pw1len (s : State) : (s.complete).pw1len = s.pw1len := rfl
@[simp] theorem State.complete_pw2len (s : State) : (s.complete).pw2len = s.pw2len := rfl
@[simp] theorem State.complete_pw1 (s : State) : (s.complete).pw1 = s.pw1 := rfl
@[simp] theorem State.complete_pw2 (s : State) : (s.complete).pw2 = s.pw2 := rfl
@[simp] theorem State.complete_gamma (s : State) : (s.complete).gamma = s.gamma := rfl
@[simp] theorem State.complete_data (s : State) : (s.complete).data = s.data := rfl
@[simp] theorem State.complete_cmdr (s : State) : (s.complete).cmdr = s.cmdr := rfl
@[simp] theorem State.complete_scratch (s : State) : (s.complete).scratch = s.scratch := rfl
@[simp] theorem State.complete_draws (s : State) : (s.complete).draws = s.draws := rfl
@[simp] theorem State.complete_script (s : State) : (s.complete).script = s.script := rfl
@[simp] theorem State.complete_hostLog (s : State) : (s.complete).hostLog = s.hostLog := rfl
@[simp] theorem State.complete_turns (s : State) : (s.complete).turns = s.turns := rfl

/-! ## `State.acknowledge` -/

@[simp] theorem State.acknowledge_params (s : State) : (s.acknowledge).params = s.params := rfl
@[simp] theorem State.acknowledge_status (s : State) : (s.acknowledge).status = { s.status with done := false, err := .none } := rfl
@[simp] theorem State.acknowledge_iv (s : State) : (s.acknowledge).iv = s.iv := rfl
@[simp] theorem State.acknowledge_ghash (s : State) : (s.acknowledge).ghash = s.ghash := rfl
@[simp] theorem State.acknowledge_pwhash (s : State) : (s.acknowledge).pwhash = s.pwhash := rfl
@[simp] theorem State.acknowledge_len (s : State) : (s.acknowledge).len = s.len := rfl
@[simp] theorem State.acknowledge_pw1len (s : State) : (s.acknowledge).pw1len = s.pw1len := rfl
@[simp] theorem State.acknowledge_pw2len (s : State) : (s.acknowledge).pw2len = s.pw2len := rfl
@[simp] theorem State.acknowledge_pw1 (s : State) : (s.acknowledge).pw1 = s.pw1 := rfl
@[simp] theorem State.acknowledge_pw2 (s : State) : (s.acknowledge).pw2 = s.pw2 := rfl
@[simp] theorem State.acknowledge_gamma (s : State) : (s.acknowledge).gamma = s.gamma := rfl
@[simp] theorem State.acknowledge_data (s : State) : (s.acknowledge).data = s.data := rfl
@[simp] theorem State.acknowledge_cmdr (s : State) : (s.acknowledge).cmdr = s.cmdr := rfl
@[simp] theorem State.acknowledge_scratch (s : State) : (s.acknowledge).scratch = s.scratch := rfl
@[simp] theorem State.acknowledge_draws (s : State) : (s.acknowledge).draws = s.draws := rfl
@[simp] theorem State.acknowledge_script (s : State) : (s.acknowledge).script = s.script := rfl
@[simp] theorem State.acknowledge_hostLog (s : State) : (s.acknowledge).hostLog = s.hostLog := rfl
@[simp] theorem State.acknowledge_turns (s : State) : (s.acknowledge).turns = s.turns := rfl

/-! ## `State.latch` -/

@[simp] theorem State.latch_params (s : State) (w : Byte) : (s.latch w).params = s.params := rfl
@[simp] theorem State.latch_status (s : State) (w : Byte) : (s.latch w).status = { s.status with busy := true, done := false } := rfl
@[simp] theorem State.latch_iv (s : State) (w : Byte) : (s.latch w).iv = s.iv := rfl
@[simp] theorem State.latch_ghash (s : State) (w : Byte) : (s.latch w).ghash = s.ghash := rfl
@[simp] theorem State.latch_pwhash (s : State) (w : Byte) : (s.latch w).pwhash = s.pwhash := rfl
@[simp] theorem State.latch_len (s : State) (w : Byte) : (s.latch w).len = s.len := rfl
@[simp] theorem State.latch_pw1len (s : State) (w : Byte) : (s.latch w).pw1len = s.pw1len := rfl
@[simp] theorem State.latch_pw2len (s : State) (w : Byte) : (s.latch w).pw2len = s.pw2len := rfl
@[simp] theorem State.latch_pw1 (s : State) (w : Byte) : (s.latch w).pw1 = s.pw1 := rfl
@[simp] theorem State.latch_pw2 (s : State) (w : Byte) : (s.latch w).pw2 = s.pw2 := rfl
@[simp] theorem State.latch_gamma (s : State) (w : Byte) : (s.latch w).gamma = s.gamma := rfl
@[simp] theorem State.latch_data (s : State) (w : Byte) : (s.latch w).data = s.data := rfl
@[simp] theorem State.latch_cmdr (s : State) (w : Byte) : (s.latch w).cmdr = w := rfl
@[simp] theorem State.latch_scratch (s : State) (w : Byte) : (s.latch w).scratch = s.scratch := rfl
@[simp] theorem State.latch_draws (s : State) (w : Byte) : (s.latch w).draws = s.draws := rfl
@[simp] theorem State.latch_script (s : State) (w : Byte) : (s.latch w).script = s.script := rfl
@[simp] theorem State.latch_hostLog (s : State) (w : Byte) : (s.latch w).hostLog = s.hostLog := rfl
@[simp] theorem State.latch_turns (s : State) (w : Byte) : (s.latch w).turns = s.turns := rfl

/-! ## `State.atStage` -/

@[simp] theorem State.atStage_params (s : State) (n : Fin 4) : (s.atStage n).params = s.params := rfl
@[simp] theorem State.atStage_status (s : State) (n : Fin 4) : (s.atStage n).status = s.status := rfl
@[simp] theorem State.atStage_iv (s : State) (n : Fin 4) : (s.atStage n).iv = s.iv := rfl
@[simp] theorem State.atStage_ghash (s : State) (n : Fin 4) : (s.atStage n).ghash = s.ghash := rfl
@[simp] theorem State.atStage_pwhash (s : State) (n : Fin 4) : (s.atStage n).pwhash = s.pwhash := rfl
@[simp] theorem State.atStage_len (s : State) (n : Fin 4) : (s.atStage n).len = s.len := rfl
@[simp] theorem State.atStage_pw1len (s : State) (n : Fin 4) : (s.atStage n).pw1len = s.pw1len := rfl
@[simp] theorem State.atStage_pw2len (s : State) (n : Fin 4) : (s.atStage n).pw2len = s.pw2len := rfl
@[simp] theorem State.atStage_pw1 (s : State) (n : Fin 4) : (s.atStage n).pw1 = s.pw1 := rfl
@[simp] theorem State.atStage_pw2 (s : State) (n : Fin 4) : (s.atStage n).pw2 = s.pw2 := rfl
@[simp] theorem State.atStage_gamma (s : State) (n : Fin 4) : (s.atStage n).gamma = s.gamma := rfl
@[simp] theorem State.atStage_data (s : State) (n : Fin 4) : (s.atStage n).data = s.data := rfl
@[simp] theorem State.atStage_cmdr (s : State) (n : Fin 4) : (s.atStage n).cmdr = s.cmdr := rfl
@[simp] theorem State.atStage_scratch (s : State) (n : Fin 4) : (s.atStage n).scratch = { s.scratch with seq := n } := rfl
@[simp] theorem State.atStage_draws (s : State) (n : Fin 4) : (s.atStage n).draws = s.draws := rfl
@[simp] theorem State.atStage_script (s : State) (n : Fin 4) : (s.atStage n).script = s.script := rfl
@[simp] theorem State.atStage_hostLog (s : State) (n : Fin 4) : (s.atStage n).hostLog = s.hostLog := rfl
@[simp] theorem State.atStage_turns (s : State) (n : Fin 4) : (s.atStage n).turns = s.turns := rfl

/-! ## `State.tookTurn` -/

@[simp] theorem State.tookTurn_params (s : State) : (s.tookTurn).params = s.params := rfl
@[simp] theorem State.tookTurn_status (s : State) : (s.tookTurn).status = s.status := rfl
@[simp] theorem State.tookTurn_iv (s : State) : (s.tookTurn).iv = s.iv := rfl
@[simp] theorem State.tookTurn_ghash (s : State) : (s.tookTurn).ghash = s.ghash := rfl
@[simp] theorem State.tookTurn_pwhash (s : State) : (s.tookTurn).pwhash = s.pwhash := rfl
@[simp] theorem State.tookTurn_len (s : State) : (s.tookTurn).len = s.len := rfl
@[simp] theorem State.tookTurn_pw1len (s : State) : (s.tookTurn).pw1len = s.pw1len := rfl
@[simp] theorem State.tookTurn_pw2len (s : State) : (s.tookTurn).pw2len = s.pw2len := rfl
@[simp] theorem State.tookTurn_pw1 (s : State) : (s.tookTurn).pw1 = s.pw1 := rfl
@[simp] theorem State.tookTurn_pw2 (s : State) : (s.tookTurn).pw2 = s.pw2 := rfl
@[simp] theorem State.tookTurn_gamma (s : State) : (s.tookTurn).gamma = s.gamma := rfl
@[simp] theorem State.tookTurn_data (s : State) : (s.tookTurn).data = s.data := rfl
@[simp] theorem State.tookTurn_cmdr (s : State) : (s.tookTurn).cmdr = s.cmdr := rfl
@[simp] theorem State.tookTurn_scratch (s : State) : (s.tookTurn).scratch = s.scratch := rfl
@[simp] theorem State.tookTurn_draws (s : State) : (s.tookTurn).draws = s.draws := rfl
@[simp] theorem State.tookTurn_script (s : State) : (s.tookTurn).script = s.script := rfl
@[simp] theorem State.tookTurn_hostLog (s : State) : (s.tookTurn).hostLog = s.hostLog := rfl
@[simp] theorem State.tookTurn_turns (s : State) : (s.tookTurn).turns = s.turns.tail := rfl

/-! ## `State.withFetchWord` -/

@[simp] theorem State.withFetchWord_params (s : State) (nbits w : Nat) : (s.withFetchWord nbits w).params = s.params := rfl
@[simp] theorem State.withFetchWord_status (s : State) (nbits w : Nat) : (s.withFetchWord nbits w).status = { s.status with busy := true, done := false } := rfl
@[simp] theorem State.withFetchWord_iv (s : State) (nbits w : Nat) : (s.withFetchWord nbits w).iv = s.iv := rfl
@[simp] theorem State.withFetchWord_ghash (s : State) (nbits w : Nat) : (s.withFetchWord nbits w).ghash = s.ghash := rfl
@[simp] theorem State.withFetchWord_pwhash (s : State) (nbits w : Nat) : (s.withFetchWord nbits w).pwhash = s.pwhash := rfl
@[simp] theorem State.withFetchWord_len (s : State) (nbits w : Nat) : (s.withFetchWord nbits w).len = s.len := rfl
@[simp] theorem State.withFetchWord_pw1len (s : State) (nbits w : Nat) : (s.withFetchWord nbits w).pw1len = s.pw1len := rfl
@[simp] theorem State.withFetchWord_pw2len (s : State) (nbits w : Nat) : (s.withFetchWord nbits w).pw2len = s.pw2len := rfl
@[simp] theorem State.withFetchWord_pw1 (s : State) (nbits w : Nat) : (s.withFetchWord nbits w).pw1 = s.pw1 := rfl
@[simp] theorem State.withFetchWord_pw2 (s : State) (nbits w : Nat) : (s.withFetchWord nbits w).pw2 = s.pw2 := rfl
@[simp] theorem State.withFetchWord_gamma (s : State) (nbits w : Nat) : (s.withFetchWord nbits w).gamma = s.gamma := rfl
@[simp] theorem State.withFetchWord_data (s : State) (nbits w : Nat) : (s.withFetchWord nbits w).data = s.data := rfl
@[simp] theorem State.withFetchWord_cmdr (s : State) (nbits w : Nat) : (s.withFetchWord nbits w).cmdr = BitVec.ofNat 8 (w % 2 ^ nbits) := rfl
@[simp] theorem State.withFetchWord_scratch (s : State) (nbits w : Nat) : (s.withFetchWord nbits w).scratch = s.scratch := rfl
@[simp] theorem State.withFetchWord_draws (s : State) (nbits w : Nat) : (s.withFetchWord nbits w).draws = s.draws := rfl
@[simp] theorem State.withFetchWord_script (s : State) (nbits w : Nat) : (s.withFetchWord nbits w).script = s.script := rfl
@[simp] theorem State.withFetchWord_hostLog (s : State) (nbits w : Nat) : (s.withFetchWord nbits w).hostLog = s.hostLog := rfl
@[simp] theorem State.withFetchWord_turns (s : State) (nbits w : Nat) : (s.withFetchWord nbits w).turns = .engine :: s.turns := rfl

/-! ## `State.setMem` -/

@[simp] theorem State.setMem_params (s : State) (sp : Space) (m : Memory) : (s.setMem sp m).params = s.params := by cases sp <;> rfl
@[simp] theorem State.setMem_status (s : State) (sp : Space) (m : Memory) : (s.setMem sp m).status = s.status := by cases sp <;> rfl
@[simp] theorem State.setMem_iv (s : State) (sp : Space) (m : Memory) : (s.setMem sp m).iv = s.iv := by cases sp <;> rfl
@[simp] theorem State.setMem_ghash (s : State) (sp : Space) (m : Memory) : (s.setMem sp m).ghash = s.ghash := by cases sp <;> rfl
@[simp] theorem State.setMem_pwhash (s : State) (sp : Space) (m : Memory) : (s.setMem sp m).pwhash = s.pwhash := by cases sp <;> rfl
@[simp] theorem State.setMem_len (s : State) (sp : Space) (m : Memory) : (s.setMem sp m).len = s.len := by cases sp <;> rfl
@[simp] theorem State.setMem_pw1len (s : State) (sp : Space) (m : Memory) : (s.setMem sp m).pw1len = s.pw1len := by cases sp <;> rfl
@[simp] theorem State.setMem_pw2len (s : State) (sp : Space) (m : Memory) : (s.setMem sp m).pw2len = s.pw2len := by cases sp <;> rfl
@[simp] theorem State.setMem_cmdr (s : State) (sp : Space) (m : Memory) : (s.setMem sp m).cmdr = s.cmdr := by cases sp <;> rfl
@[simp] theorem State.setMem_scratch (s : State) (sp : Space) (m : Memory) : (s.setMem sp m).scratch = s.scratch := by cases sp <;> rfl
@[simp] theorem State.setMem_draws (s : State) (sp : Space) (m : Memory) : (s.setMem sp m).draws = s.draws := by cases sp <;> rfl
@[simp] theorem State.setMem_script (s : State) (sp : Space) (m : Memory) : (s.setMem sp m).script = s.script := by cases sp <;> rfl
@[simp] theorem State.setMem_hostLog (s : State) (sp : Space) (m : Memory) : (s.setMem sp m).hostLog = s.hostLog := by cases sp <;> rfl
@[simp] theorem State.setMem_turns (s : State) (sp : Space) (m : Memory) : (s.setMem sp m).turns = s.turns := by cases sp <;> rfl
@[simp] theorem State.setMem_mem_same (s : State) (sp : Space) (m : Memory) : (s.setMem sp m).mem sp = m := by cases sp <;> rfl
theorem State.setMem_mem (s : State) (sp sp' : Space) (m : Memory) :
    (s.setMem sp m).mem sp' = if sp' = sp then m else s.mem sp' := by
  cases sp <;> cases sp' <;> rfl

/-! ## `resetEvent` -/

@[simp] theorem resetEvent_params (s : State) : (resetEvent s).params = s.params := rfl
@[simp] theorem resetEvent_status (s : State) : (resetEvent s).status = (State.afterReset s.params (s.draws + 1)).status := rfl
@[simp] theorem resetEvent_iv (s : State) : (resetEvent s).iv = (State.afterReset s.params (s.draws + 1)).iv := rfl
@[simp] theorem resetEvent_ghash (s : State) : (resetEvent s).ghash = (State.afterReset s.params (s.draws + 1)).ghash := rfl
@[simp] theorem resetEvent_pwhash (s : State) : (resetEvent s).pwhash = (State.afterReset s.params (s.draws + 1)).pwhash := rfl
@[simp] theorem resetEvent_len (s : State) : (resetEvent s).len = (State.afterReset s.params (s.draws + 1)).len := rfl
@[simp] theorem resetEvent_pw1len (s : State) : (resetEvent s).pw1len = (State.afterReset s.params (s.draws + 1)).pw1len := rfl
@[simp] theorem resetEvent_pw2len (s : State) : (resetEvent s).pw2len = (State.afterReset s.params (s.draws + 1)).pw2len := rfl
@[simp] theorem resetEvent_pw1 (s : State) : (resetEvent s).pw1 = (State.afterReset s.params (s.draws + 1)).pw1 := rfl
@[simp] theorem resetEvent_pw2 (s : State) : (resetEvent s).pw2 = (State.afterReset s.params (s.draws + 1)).pw2 := rfl
@[simp] theorem resetEvent_gamma (s : State) : (resetEvent s).gamma = (State.afterReset s.params (s.draws + 1)).gamma := rfl
@[simp] theorem resetEvent_data (s : State) : (resetEvent s).data = (State.afterReset s.params (s.draws + 1)).data := rfl
@[simp] theorem resetEvent_cmdr (s : State) : (resetEvent s).cmdr = (State.afterReset s.params (s.draws + 1)).cmdr := rfl
@[simp] theorem resetEvent_scratch (s : State) : (resetEvent s).scratch = (State.afterReset s.params (s.draws + 1)).scratch := rfl
@[simp] theorem resetEvent_draws (s : State) : (resetEvent s).draws = s.draws + 1 := rfl
@[simp] theorem resetEvent_script (s : State) : (resetEvent s).script = s.script := rfl
@[simp] theorem resetEvent_hostLog (s : State) : (resetEvent s).hostLog = s.hostLog := rfl
@[simp] theorem resetEvent_turns (s : State) : (resetEvent s).turns = s.turns := rfl

/-! ## Reading a space -/

/-- What a space reads as depends on its cells, its draw and nothing else. -/
theorem State.byteAt_congr {s t : State} {sp : Space} (hm : t.mem sp = s.mem sp) (hd : t.draws = s.draws) (a : Nat) :
    t.byteAt sp a = s.byteAt sp a := by
  simp only [State.byteAt, Store.byteAt, State.store, hm, hd]

@[simp] theorem State.store_space (s : State) (sp : Space) : (s.store sp).space = sp := rfl
@[simp] theorem State.store_size (s : State) (sp : Space) : (s.store sp).size = Params.size s.params sp := rfl
@[simp] theorem State.store_draw (s : State) (sp : Space) : (s.store sp).draw = s.draws := rfl
@[simp] theorem State.store_cells (s : State) (sp : Space) : (s.store sp).cells = s.mem sp := rfl
@[simp] theorem State.store_byteAt (s : State) (sp : Space) (a : Nat) : (s.store sp).byteAt a = s.byteAt sp a := rfl

@[simp] theorem State.setKeyv_byteAt (s : State) (v : Bool) (sp : Space) (a : Nat) : (s.setKeyv v).byteAt sp a = s.byteAt sp a := by cases sp <;> rfl
@[simp] theorem State.setKeyv_mem (s : State) (v : Bool) (sp : Space) : (s.setKeyv v).mem sp = s.mem sp := by cases sp <;> rfl
@[simp] theorem State.setKeyv_store (s : State) (v : Bool) (sp : Space) : (s.setKeyv v).store sp = s.store sp := by cases sp <;> rfl
@[simp] theorem State.enterFault_byteAt (s : State) (e : Err) (sp : Space) (a : Nat) : (s.enterFault e).byteAt sp a = s.byteAt sp a := by cases sp <;> rfl
@[simp] theorem State.enterFault_mem (s : State) (e : Err) (sp : Space) : (s.enterFault e).mem sp = s.mem sp := by cases sp <;> rfl
@[simp] theorem State.enterFault_store (s : State) (e : Err) (sp : Space) : (s.enterFault e).store sp = s.store sp := by cases sp <;> rfl
@[simp] theorem State.complete_byteAt (s : State) (sp : Space) (a : Nat) : (s.complete).byteAt sp a = s.byteAt sp a := by cases sp <;> rfl
@[simp] theorem State.complete_mem (s : State) (sp : Space) : (s.complete).mem sp = s.mem sp := by cases sp <;> rfl
@[simp] theorem State.complete_store (s : State) (sp : Space) : (s.complete).store sp = s.store sp := by cases sp <;> rfl
@[simp] theorem State.acknowledge_byteAt (s : State) (sp : Space) (a : Nat) : (s.acknowledge).byteAt sp a = s.byteAt sp a := by cases sp <;> rfl
@[simp] theorem State.acknowledge_mem (s : State) (sp : Space) : (s.acknowledge).mem sp = s.mem sp := by cases sp <;> rfl
@[simp] theorem State.acknowledge_store (s : State) (sp : Space) : (s.acknowledge).store sp = s.store sp := by cases sp <;> rfl
@[simp] theorem State.latch_byteAt (s : State) (w : Byte) (sp : Space) (a : Nat) : (s.latch w).byteAt sp a = s.byteAt sp a := by cases sp <;> rfl
@[simp] theorem State.latch_mem (s : State) (w : Byte) (sp : Space) : (s.latch w).mem sp = s.mem sp := by cases sp <;> rfl
@[simp] theorem State.latch_store (s : State) (w : Byte) (sp : Space) : (s.latch w).store sp = s.store sp := by cases sp <;> rfl
@[simp] theorem State.atStage_byteAt (s : State) (n : Fin 4) (sp : Space) (a : Nat) : (s.atStage n).byteAt sp a = s.byteAt sp a := by cases sp <;> rfl
@[simp] theorem State.atStage_mem (s : State) (n : Fin 4) (sp : Space) : (s.atStage n).mem sp = s.mem sp := by cases sp <;> rfl
@[simp] theorem State.atStage_store (s : State) (n : Fin 4) (sp : Space) : (s.atStage n).store sp = s.store sp := by cases sp <;> rfl
@[simp] theorem State.tookTurn_byteAt (s : State) (sp : Space) (a : Nat) : (s.tookTurn).byteAt sp a = s.byteAt sp a := by cases sp <;> rfl
@[simp] theorem State.tookTurn_mem (s : State) (sp : Space) : (s.tookTurn).mem sp = s.mem sp := by cases sp <;> rfl
@[simp] theorem State.tookTurn_store (s : State) (sp : Space) : (s.tookTurn).store sp = s.store sp := by cases sp <;> rfl
@[simp] theorem State.withFetchWord_byteAt (s : State) (nbits w : Nat) (sp : Space) (a : Nat) : (s.withFetchWord nbits w).byteAt sp a = s.byteAt sp a := by cases sp <;> rfl
@[simp] theorem State.withFetchWord_mem (s : State) (nbits w : Nat) (sp : Space) : (s.withFetchWord nbits w).mem sp = s.mem sp := by cases sp <;> rfl
@[simp] theorem State.withFetchWord_store (s : State) (nbits w : Nat) (sp : Space) : (s.withFetchWord nbits w).store sp = s.store sp := by cases sp <;> rfl

/-! A named update that leaves the cells and the draw alone leaves every byte alone. -/

@[simp] theorem State.setKeyv_byteAt_fun (s : State) (v : Bool) : (s.setKeyv v).byteAt = s.byteAt := by
  funext sp; cases sp <;> rfl
@[simp] theorem State.enterFault_byteAt_fun (s : State) (e : Err) : (s.enterFault e).byteAt = s.byteAt := by
  funext sp; cases sp <;> rfl
@[simp] theorem State.complete_byteAt_fun (s : State) : s.complete.byteAt = s.byteAt := by
  funext sp; cases sp <;> rfl
@[simp] theorem State.acknowledge_byteAt_fun (s : State) : s.acknowledge.byteAt = s.byteAt := by
  funext sp; cases sp <;> rfl
@[simp] theorem State.latch_byteAt_fun (s : State) (w : Byte) : (s.latch w).byteAt = s.byteAt := by
  funext sp; cases sp <;> rfl
@[simp] theorem State.atStage_byteAt_fun (s : State) (n : Fin 4) : (s.atStage n).byteAt = s.byteAt := by
  funext sp; cases sp <;> rfl
@[simp] theorem State.tookTurn_byteAt_fun (s : State) : s.tookTurn.byteAt = s.byteAt := by
  funext sp; cases sp <;> rfl
@[simp] theorem State.withFetchWord_byteAt_fun (s : State) (nbits w : Nat) :
    (s.withFetchWord nbits w).byteAt = s.byteAt := by
  funext sp; cases sp <;> rfl

end Sys2Proof.Machine
end

