-- ==== Sys2Proof/Laws/Memory.lean ====
section
/-! SUPPORT. Memories: read after write, the canonical form, and the bounds of a space. -/

namespace Sys2Proof.Machine

theorem Memory.find_put (m : Memory) (a : Nat) (b : Byte) (a' : Nat) :
    Memory.find (Memory.put m a b) a' = if a' = a then some b else Memory.find m a' := by
  induction m with
  | nil => simp [Memory.put, Memory.find]
  | cons e rest ih =>
    obtain ⟨k, v⟩ := e
    simp only [Memory.put]
    split
    · simp only [Memory.find]
    · split
      · simp only [Memory.find]; split <;> simp_all
      · simp only [Memory.find, ih]; split <;> split <;> simp_all

theorem Memory.risesFrom_mono {lo lo' : Nat} {m : Memory} (h : lo' ≤ lo) (hm : Memory.risesFrom lo m = true) :
    Memory.risesFrom lo' m = true := by
  cases m with
  | nil => rfl
  | cons e rest =>
    simp only [Memory.risesFrom, Bool.and_eq_true, decide_eq_true_eq] at hm ⊢
    exact ⟨le_trans h hm.1, hm.2⟩

theorem Memory.risesFrom_put {m : Memory} {lo a : Nat} (b : Byte) (h : Memory.risesFrom lo m = true) (ha : lo ≤ a) :
    Memory.risesFrom lo (Memory.put m a b) = true := by
  induction m generalizing lo with
  | nil => simp [Memory.put, Memory.risesFrom, ha]
  | cons e rest ih =>
    obtain ⟨k, v⟩ := e
    simp only [Memory.risesFrom, Bool.and_eq_true, decide_eq_true_eq] at h
    simp only [Memory.put]
    split
    · simp only [Memory.risesFrom, Bool.and_eq_true, decide_eq_true_eq]; exact ⟨ha, by omega, h.2⟩
    · split
      · simp only [Memory.risesFrom, Bool.and_eq_true, decide_eq_true_eq]
        exact ⟨ha, by rw [‹a = k›]; exact h.2⟩
      · simp only [Memory.risesFrom, Bool.and_eq_true, decide_eq_true_eq]
        exact ⟨h.1, ih h.2 (by omega)⟩

/-- A write keeps the canonical form. -/
theorem Memory.wf_put {m : Memory} (a : Nat) (b : Byte) (h : Memory.wf m = true) : Memory.wf (Memory.put m a b) = true :=
  Memory.risesFrom_put b h (Nat.zero_le a)

/-- A write inside a space lists no cell outside it. -/
theorem Memory.within_put {c : Capacity} {m : Memory} {a : Nat} (b : Byte) (h : Memory.within c m = true)
    (ha : inside c a = true) : Memory.within c (Memory.put m a b) = true := by
  induction m with
  | nil => simp [Memory.put, Memory.within, ha]
  | cons e rest ih =>
    obtain ⟨k, v⟩ := e
    simp only [Memory.within, List.all_cons, Bool.and_eq_true] at h ih ⊢
    simp only [Memory.put]
    split
    · simp only [List.all_cons, Bool.and_eq_true]; exact ⟨ha, h.1, h.2⟩
    · split
      · simp only [List.all_cons, Bool.and_eq_true]; exact ⟨ha, h.2⟩
      · simp only [List.all_cons, Bool.and_eq_true]; exact ⟨h.1, ih h.2⟩

/-! ## Canonical memories are determined by what they list -/

theorem Memory.find_below {m : Memory} {lo a : Nat} (h : Memory.risesFrom lo m = true) (ha : a < lo) :
    Memory.find m a = none := by
  induction m generalizing lo with
  | nil => rfl
  | cons e rest ih =>
    obtain ⟨k, v⟩ := e
    simp only [Memory.risesFrom, Bool.and_eq_true, decide_eq_true_eq] at h
    simp only [Memory.find]
    rw [if_neg (by omega)]
    exact ih h.2 (by omega)

theorem Memory.ext_risesFrom {m m' : Memory} {lo lo' : Nat} (h : Memory.risesFrom lo m = true)
    (h' : Memory.risesFrom lo' m' = true) (hf : ∀ a, Memory.find m a = Memory.find m' a) : m = m' := by
  induction m generalizing lo lo' m' with
  | nil =>
    cases m' with
    | nil => rfl
    | cons e rest => have := hf e.1; simp [Memory.find] at this
  | cons e rest ih =>
    obtain ⟨k, v⟩ := e
    cases m' with
    | nil => have := hf k; simp [Memory.find] at this
    | cons e' rest' =>
      obtain ⟨k', v'⟩ := e'
      simp only [Memory.risesFrom, Bool.and_eq_true, decide_eq_true_eq] at h h'
      have hk : k = k' := by
        rcases lt_trichotomy k k' with hlt | heq | hgt
        · have := hf k
          simp only [Memory.find, if_neg (by omega : ¬ k = k'), Memory.find_below h'.2 (by omega : k < k' + 1)] at this
          simp at this
        · exact heq
        · have := hf k'
          simp only [Memory.find, if_neg (by omega : ¬ k' = k), Memory.find_below h.2 (by omega : k' < k + 1)] at this
          simp at this
      subst hk
      have hv : v = v' := by have := hf k; simpa [Memory.find] using this
      subst hv
      have hr : rest = rest' := by
        refine ih h.2 h'.2 fun a => ?_
        by_cases ha : a = k
        · subst ha
          rw [Memory.find_below h.2 (by omega), Memory.find_below h'.2 (by omega)]
        · have := hf a; simpa [Memory.find, ha] using this
      rw [hr]

/-- Equal memories are equal data: two canonical memories that list the same bytes are one list. -/
theorem Memory.ext_wf {m m' : Memory} (h : Memory.wf m = true) (h' : Memory.wf m' = true)
    (hf : ∀ a, Memory.find m a = Memory.find m' a) : m = m' :=
  Memory.ext_risesFrom h h' hf

/-! ## Stores -/

/-- The store after a write. -/
def Store.set (d : Store) (a : Nat) (b : Byte) : Store := { d with cells := Memory.put d.cells a b }

theorem Store.byteAt_set (d : Store) (a : Nat) (b : Byte) (a' : Nat) :
    (d.set a b).byteAt a' = if a' = a then b else d.byteAt a' := by
  simp only [Store.byteAt, Store.set, Memory.find_put]
  by_cases h : a' = a
  · rw [if_pos h, if_pos h]
  · rw [if_neg h, if_neg h]

theorem Store.read_inside {d : Store} {a : Nat} (h : inside d.size a = true) : d.read a = .ok (d.byteAt a) := by
  simp [Store.read, h]

theorem Store.write_inside {d : Store} {a : Nat} (b : Byte) (h : inside d.size a = true) :
    d.write a b = .ok (d.set a b) := by
  simp [Store.write, h, Store.set]

@[simp] theorem Store.set_space (d : Store) (a : Nat) (b : Byte) : (d.set a b).space = d.space := rfl
@[simp] theorem Store.set_size (d : Store) (a : Nat) (b : Byte) : (d.set a b).size = d.size := rfl
@[simp] theorem Store.set_draw (d : Store) (a : Nat) (b : Byte) : (d.set a b).draw = d.draw := rfl
@[simp] theorem Store.set_cells (d : Store) (a : Nat) (b : Byte) : (d.set a b).cells = Memory.put d.cells a b := rfl

/-- `d'` is `d` after writes at the indices of `touched`, each inside the space: what every loop over a store gives. -/
structure Store.Updated (d d' : Store) (touched : Nat → Prop) : Prop where
  space : d'.space = d.space
  size : d'.size = d.size
  draw : d'.draw = d.draw
  same : ∀ a, ¬ touched a → d'.byteAt a = d.byteAt a
  wf : Memory.wf d.cells = true → Memory.wf d'.cells = true
  within : Memory.within d.size d.cells = true → Memory.within d.size d'.cells = true

theorem Store.Updated.refl (d : Store) (touched : Nat → Prop) : Store.Updated d d touched :=
  ⟨rfl, rfl, rfl, fun _ _ => rfl, id, id⟩

theorem Store.Updated.set {d d' : Store} {touched : Nat → Prop} (h : Store.Updated d d' touched) {a : Nat} (b : Byte)
    (ha : inside d.size a = true) (ht : touched a) : Store.Updated d (d'.set a b) touched where
  space := h.space
  size := h.size
  draw := h.draw
  same := fun a' ha' => by
    have hne : a' ≠ a := by rintro rfl; exact ha' ht
    rw [Store.byteAt_set, if_neg hne, h.same a' ha']
  wf := fun hw => Memory.wf_put a b (h.wf hw)
  within := fun hw => Memory.within_put b (h.within hw) ha

theorem Store.Updated.trans {d d' d'' : Store} {p q : Nat → Prop} (h : Store.Updated d d' p) (h' : Store.Updated d' d'' q) :
    Store.Updated d d'' (fun a => p a ∨ q a) where
  space := h'.space.trans h.space
  size := h'.size.trans h.size
  draw := h'.draw.trans h.draw
  same := fun a ha => by rw [h'.same a (fun hq => ha (.inr hq)), h.same a (fun hp => ha (.inl hp))]
  wf := fun hw => h'.wf (h.wf hw)
  within := fun hw => h.size ▸ h'.within (by rw [h.size]; exact h.within hw)

theorem Store.Updated.mono {d d' : Store} {p q : Nat → Prop} (h : Store.Updated d d' p) (hpq : ∀ a, p a → q a) :
    Store.Updated d d' q :=
  ⟨h.space, h.size, h.draw, fun a ha => h.same a (fun hp => ha (hpq a hp)), h.wf, h.within⟩

end Sys2Proof.Machine
end

