-- ==== Sys2Proof/Laws/Loops.lean ====
section
/-! SUPPORT. The shared loops: what `foldBytes` and `sweep` answer, said once. -/

namespace Sys2Proof.Machine

variable {σ : Type}

/-- A fold whose reads succeed follows the sequence `R` of its accumulators. -/
theorem foldBytes_eq {rd : Nat → Except Fault Byte} {f : σ → Byte → σ} {g : Nat → Byte} {R : Nat → σ} {N : Nat}
    (h : ∀ m, m < N → rd m = .ok (g m) ∧ R (m + 1) = f (R m) (g m)) (n a : Nat) (ha : a + n ≤ N) :
    foldBytes rd f n a (R a) = .ok (R (a + n)) := by
  induction n generalizing a with
  | zero => rfl
  | succ n ih =>
    obtain ⟨hrd, hR⟩ := h a (by omega)
    simp only [foldBytes, hrd, ← hR]
    rw [ih (a + 1) (by omega)]
    congr 2; omega

/-- A pass over a window, as far as its first k positions: if at each of them the body writes `F i b` and keeps `P`, the
pass stands at position k with `P`, those k bytes rewritten and every other byte as before. -/
theorem sweep_first {body : Nat → Nat → σ → Byte → Pos σ} {P : Nat → σ → Prop} {F : Nat → Byte → Byte} {off n : Nat}
    {r : σ} {d : Store} (k : Nat) (hk : k ≤ n) (hr : P 0 r)
    (hin : ∀ i, i < k → inside d.size (off + i) = true)
    (hbody : ∀ i, i < k → ∀ r b, P i r → ∃ r', body (n - i) i r b = .write r' (F i b) ∧ P (i + 1) r') :
    ∃ r' d', P k r' ∧ Store.Updated d d' (fun a => off ≤ a ∧ a < off + k) ∧
      (∀ i, i < k → d'.byteAt (off + i) = F i (d.byteAt (off + i))) ∧
      sweep body off n 0 r d = sweep body off (n - k) k r' d' := by
  induction k with
  | zero => exact ⟨r, d, hr, .refl _ _, fun i hi => absurd hi (Nat.not_lt_zero i), rfl⟩
  | succ k ih =>
    obtain ⟨r', d', hP, hU, hF, hs⟩ := ih (by omega) (fun i hi => hin i (by omega)) (fun i hi => hbody i (by omega))
    obtain ⟨r'', hb, hP'⟩ := hbody k (by omega) r' (d'.byteAt (off + k)) hP
    have hin' : inside d.size (off + k) = true := hin k (by omega)
    have hin'' : inside d'.size (off + k) = true := by rw [hU.size]; exact hin'
    refine ⟨r'', d'.set (off + k) (F k (d'.byteAt (off + k))), hP',
      (hU.mono (q := fun a => off ≤ a ∧ a < off + (k + 1)) (by rintro a ⟨h1, h2⟩; exact ⟨h1, by omega⟩)).set _ hin'
        ⟨by omega, by omega⟩, ?_, ?_⟩
    · intro i hi
      rw [Store.byteAt_set]
      by_cases he : i = k
      · subst he
        rw [if_pos rfl, hU.same _ (by omega)]
      · rw [if_neg (by omega), hF i (by omega)]
    · rw [hs]
      obtain ⟨c, hc⟩ : ∃ c, n - k = c + 1 := ⟨n - k - 1, by omega⟩
      rw [hc] at hb ⊢
      simp only [sweep, Store.read_inside hin'', hb, Store.write_inside _ hin'']
      congr 1; omega

/-- A pass whose body writes at every position ends done, the whole window rewritten. -/
theorem sweep_done {body : Nat → Nat → σ → Byte → Pos σ} {P : Nat → σ → Prop} {F : Nat → Byte → Byte} {off n : Nat}
    {r : σ} {d : Store} (hr : P 0 r) (hin : ∀ i, i < n → inside d.size (off + i) = true)
    (hbody : ∀ i, i < n → ∀ r b, P i r → ∃ r', body (n - i) i r b = .write r' (F i b) ∧ P (i + 1) r') :
    ∃ r' d', P n r' ∧ Store.Updated d d' (fun a => off ≤ a ∧ a < off + n) ∧
      (∀ i, i < n → d'.byteAt (off + i) = F i (d.byteAt (off + i))) ∧ sweep body off n 0 r d = .done r' d' := by
  obtain ⟨r', d', h1, h2, h3, h4⟩ := sweep_first n le_rfl hr hin hbody
  exact ⟨r', d', h1, h2, h3, by rw [h4, Nat.sub_self]; rfl⟩

/-- A pass whose body writes at the first k positions and raises at position k ends there, those k bytes rewritten. -/
theorem sweep_raised {body : Nat → Nat → σ → Byte → Pos σ} {P : Nat → σ → Prop} {F : Nat → Byte → Byte} {off n : Nat}
    {r : σ} {d : Store} {e : Err} (k : Nat) (hk : k < n) (hr : P 0 r)
    (hin : ∀ i, i < n → inside d.size (off + i) = true)
    (hbody : ∀ i, i < k → ∀ r b, P i r → ∃ r', body (n - i) i r b = .write r' (F i b) ∧ P (i + 1) r')
    (hraise : ∀ r b, P k r → ∃ r', body (n - k) k r b = .raise e r') :
    ∃ r' d', Store.Updated d d' (fun a => off ≤ a ∧ a < off + k) ∧
      (∀ i, i < k → d'.byteAt (off + i) = F i (d.byteAt (off + i))) ∧ sweep body off n 0 r d = .raised e r' d' := by
  obtain ⟨r', d', h1, h2, h3, h4⟩ := sweep_first k (by omega) hr (fun i hi => hin i (by omega)) hbody
  obtain ⟨r'', hb⟩ := hraise r' (d'.byteAt (off + k)) h1
  have hin' : inside d'.size (off + k) = true := by rw [h2.size]; exact hin k hk
  refine ⟨r'', d', h2, h3, ?_⟩
  obtain ⟨c, hc⟩ : ∃ c, n - k = c + 1 := ⟨n - k - 1, by omega⟩
  rw [h4, hc]
  rw [hc] at hb
  simp only [sweep, Store.read_inside hin', hb]

end Sys2Proof.Machine
end

