-- ==== Sys2Proof/Laws/Digest.lean ====
section
/-! SUPPORT. The digest unit: what `digestGamma` and `digestPassword` answer. -/

namespace Sys2Proof.Machine

open Safety

theorem inside_gamma (s : State) {a : Nat} (h : a < 255) : inside (Params.size s.params .gamma) a = true := by
  simp [Params.size, inside, h]

/-- A length that fits a memory puts every smaller index inside it. -/
theorem inside_of_fits {c : Capacity} {n a : Nat} (h : lenFits c n = true) (ha : a < n) : inside c a = true := by
  cases c with
  | bounded k => simp only [lenFits, inside, decide_eq_true_eq] at h ⊢; omega
  | unbounded => rfl

/-- PadByte touches the memory only below a legal length (spec/20_memory.md R79). -/
theorem padByte_eq {d : Store} {n : Nat} (h : lenFits d.size n = true) (m : Nat) :
    padByte d n m = .ok (padded d.byteAt n m) := by
  unfold padByte padded
  split
  · exact Store.read_inside (inside_of_fits h ‹_›)
  · rfl

/-- The gamma digest reads GAMMA whole and writes GHASH and its accumulators (R131, R132). -/
theorem digestGamma_eq (s : State) : ∃ r : DguRegs, digestGamma s =
    .ok { s with ghash := gammaDigest (s.byteAt .gamma), scratch := s.scratch.withDgu r } := by
  have h := foldBytes_eq (rd := (s.store .gamma).read) (f := gammaDigestStep) (g := s.byteAt .gamma)
    (R := fun m => ⟨(gammaDigestRegs (s.byteAt .gamma) m).1, (gammaDigestRegs (s.byteAt .gamma) m).2⟩) (N := 255)
    (fun m hm => ⟨Store.read_inside (inside_gamma s hm), rfl⟩) 255 0 le_rfl
  refine ⟨⟨gammaDigest (s.byteAt .gamma), (gammaDigestRegs (s.byteAt .gamma) 255).2⟩, ?_⟩
  unfold digestGamma
  have h0 : dguStart = ⟨(gammaDigestRegs (s.byteAt .gamma) 0).1, (gammaDigestRegs (s.byteAt .gamma) 0).2⟩ := rfl
  rw [h0, h]
  rfl

/-- The password digest reads PW2 below its length and writes PWHASH and its accumulators (R133, R134). -/
theorem digestPassword_eq {s : State} (hl : lenFits s.params.pwMax s.pw2len = true) : ∃ r : DguRegs, digestPassword s =
    .ok { s with pwhash := passwordDigest (padded (s.byteAt .pw2) s.pw2len), scratch := s.scratch.withDgu r } := by
  have h := foldBytes_eq (rd := padByte (s.store .pw2) s.pw2len) (f := passwordDigestStep)
    (g := padded (s.byteAt .pw2) s.pw2len)
    (R := fun m => ⟨(passwordDigestRegs (padded (s.byteAt .pw2) s.pw2len) m).1,
      (passwordDigestRegs (padded (s.byteAt .pw2) s.pw2len) m).2⟩) (N := 255)
    (fun m _ => ⟨padByte_eq (d := s.store .pw2) hl m, rfl⟩) 255 0 le_rfl
  refine ⟨⟨passwordDigest (padded (s.byteAt .pw2) s.pw2len),
    (passwordDigestRegs (padded (s.byteAt .pw2) s.pw2len) 255).2⟩, ?_⟩
  unfold digestPassword
  have h0 : dguStart = ⟨(passwordDigestRegs (padded (s.byteAt .pw2) s.pw2len) 0).1,
    (passwordDigestRegs (padded (s.byteAt .pw2) s.pw2len) 0).2⟩ := rfl
  rw [h0, h]
  rfl

end Sys2Proof.Machine
end

