-- ==== Sys2Proof/Laws/Keystream.lean ====
section
/-! SUPPORT. The keystream generator: what `generate` answers, in closed form. -/

namespace Sys2Proof.Machine

open Safety

/-- The load writes the padded password over the indices it covers (R111). -/
theorem gammaLoad_eq {pw g : Store} {pwlen : Nat} (hl : lenFits pw.size pwlen = true)
    (hg : ∀ a, a < 255 → inside g.size a = true) (n m : Nat) (hn : m + n = 255) :
    ∃ g', gammaLoad pw pwlen n m g = .ok g' ∧ Store.Updated g g' (fun a => a < 255) ∧
      (∀ a, m ≤ a → a < 255 → g'.byteAt a = padded pw.byteAt pwlen a) ∧ (∀ a, a < m → g'.byteAt a = g.byteAt a) := by
  induction n generalizing m g with
  | zero => exact ⟨g, rfl, .refl _ _, fun a h1 h2 => by omega, fun _ _ => rfl⟩
  | succ n ih =>
    have hin : inside g.size m = true := hg m (by omega)
    obtain ⟨g', h1, h2, h3, h4⟩ := ih (g := g.set m (padded pw.byteAt pwlen m)) (by simpa using hg) (m + 1) (by omega)
    refine ⟨g', ?_, ?_, ?_, ?_⟩
    · simp only [gammaLoad, padByte_eq hl, Store.write_inside _ hin, h1]
    · exact (((Store.Updated.refl g (fun a => a < 255)).set _ hin (by omega)).trans h2).mono (by simp)
    · intro a ha ha'
      by_cases he : a = m
      · subst he
        rw [h4 a (by omega), Store.byteAt_set, if_pos rfl]
      · exact h3 a (by omega) ha'
    · intro a ha
      rw [h4 a (by omega), Store.byteAt_set, if_neg (by omega)]

/-- What the recurrence keeps: before iteration n, the registers are the pure recurrence's, the first n bytes of GAMMA
are generated and the others still the padded password (spec/20_memory.md R80). -/
structure KguAt (pad : Nat → Byte) (n : Nat) (r : KguRegs) (g : Store) : Prop where
  st1 : r.st1 = (genRegs pad n).1
  st2 : r.st2 = (genRegs pad n).2
  i : r.i = n
  j : r.j = 2 * n + 2
  bytes : ∀ a, a < 255 → g.byteAt a = if a < n then genByte pad a else pad a

theorem kguLoop_eq {pad : Nat → Byte} (k : Nat) {n : Nat} (hn : n + k = 125) {r : KguRegs} {g : Store}
    (hg : ∀ a, a < 255 → inside g.size a = true) (h : KguAt pad n r g) :
    ∃ r' g', kguLoop k r g = .ok (r', g') ∧ Store.Updated g g' (fun a => a < 255) ∧ KguAt pad 125 r' g' := by
  induction k generalizing n r g with
  | zero =>
    obtain rfl : n = 125 := by omega
    exact ⟨r, g, rfl, .refl _ _, h⟩
  | succ k ih =>
    have hi : inside g.size r.i = true := hg _ (by rw [h.i]; omega)
    have hj : inside g.size r.j = true := hg _ (by rw [h.j]; omega)
    have hj1 : inside g.size (r.j + 1) = true := hg _ (by rw [h.j]; omega)
    have ha : g.byteAt r.j = pad (2 * n + 2) := by rw [h.j, h.bytes _ (by omega), if_neg (by omega)]
    have hb : g.byteAt (r.j + 1) = pad (2 * n + 3) := by rw [h.j, h.bytes _ (by omega), if_neg (by omega)]
    have hcur : kguCur r.st1 (pad (2 * n + 2)) (pad (2 * n + 3)) = genByte pad n := by
      simp only [kguCur, genByte, h.st1]
    have hk : k + 1 = 125 - n := by omega
    have hnext : KguAt pad (n + 1)
        { st1 := kguSt1 (k + 1) r.st1 r.st2 (genByte pad n), st2 := kguSt2 r.st2 (genByte pad n), cur := genByte pad n
          k := k + 1, i := r.i + 1, j := r.j + 2 } (g.set r.i (genByte pad n)) := by
      refine ⟨?_, ?_, by simp [h.i], by simp only [h.j]; omega, ?_⟩
      · simp only [kguSt1, kguSt2, genRegs, genByte, h.st1, h.st2, hk, ror8_mod]
      · simp only [kguSt2, genRegs, genByte, h.st2]
      · intro a ha
        rw [Store.byteAt_set, h.i]
        by_cases he : a = n
        · subst he; rw [if_pos rfl, if_pos (by omega)]
        · rw [if_neg he, h.bytes a ha]
          by_cases hlt : a < n
          · rw [if_pos hlt, if_pos (by omega)]
          · rw [if_neg hlt, if_neg (by omega)]
    obtain ⟨r', g', h1, h2, h3⟩ := ih (by omega) (g := g.set r.i (genByte pad n)) (by simpa using hg) hnext
    refine ⟨r', g', ?_, ?_, h3⟩
    · simp only [kguLoop, Store.read_inside hj, Store.read_inside hj1, ha, hb, hcur, Store.write_inside _ hi, h1]
    · exact (((Store.Updated.refl g (fun a => a < 255)).set _ hi (by rw [h.i]; omega)).trans h2).mono (by simp)

/-- The in-place generator leaves `Gamma` of the padded password (R112, R114, R118; spec/20_memory.md R80). -/
theorem kguGenerate_eq {pw g : Store} {pwlen : Nat} (hl : lenFits pw.size pwlen = true)
    (hg : ∀ a, a < 255 → inside g.size a = true) (r : KguRegs) :
    ∃ r' g', kguGenerate pw pwlen r g = .ok (r', g') ∧ Store.Updated g g' (fun a => a < 255) ∧
      ∀ a, a < 255 → g'.byteAt a = gammaOf (padded pw.byteAt pwlen) a := by
  obtain ⟨g1, h1, h2, h3, -⟩ := gammaLoad_eq hl hg 255 0 rfl
  have hg1 : ∀ a, a < 255 → inside g1.size a = true := by rw [h2.size]; exact hg
  have h0 : g1.byteAt 0 = padded pw.byteAt pwlen 0 := h3 0 (by omega) (by omega)
  have h1' : g1.byteAt 1 = padded pw.byteAt pwlen 1 := h3 1 (by omega) (by omega)
  have hstart : KguAt (padded pw.byteAt pwlen) 0
      { r with st1 := 0xFF ^^^ padded pw.byteAt pwlen 0, st2 := 0xFF ^^^ padded pw.byteAt pwlen 1, i := 0, j := 2 } g1 :=
    ⟨rfl, rfl, rfl, rfl, fun a ha => by rw [if_neg (by omega)]; exact h3 a (by omega) ha⟩
  obtain ⟨r', g', k1, k2, k3⟩ := kguLoop_eq 125 rfl hg1 hstart
  refine ⟨r', g', ?_, (h2.trans k2).mono (by simp), fun a ha => ?_⟩
  · simp only [kguGenerate, h1, Store.read_inside (hg1 0 (by omega)), Store.read_inside (hg1 1 (by omega)), h0, h1']
    exact k1
  · rw [k3.bytes a ha, gammaOf]

/-- `generate` on the state: GAMMA and the generator's registers, nothing else. -/
theorem generate_eq {s : State} (hl : lenFits s.params.pwMax s.pw1len = true) :
    ∃ (r : KguRegs) (t : State), generate s = .ok t ∧ t = { s with gamma := t.gamma, scratch := s.scratch.withKgu r } ∧
      Store.Updated (s.store .gamma) (t.store .gamma) (fun a => a < 255) ∧
      ∀ a, a < 255 → t.byteAt .gamma a = gammaOf (padded (s.byteAt .pw1) s.pw1len) a := by
  obtain ⟨r, g, h1, h2, h3⟩ := kguGenerate_eq (pw := s.store .pw1) (g := s.store .gamma) hl
    (fun a ha => inside_gamma s ha) s.scratch.kgu
  refine ⟨r, { s with gamma := g.cells, scratch := s.scratch.withKgu r }, ?_, rfl, ?_, ?_⟩
  · simp only [generate, h1]
  all_goals
    have hst : State.store { s with gamma := g.cells, scratch := s.scratch.withKgu r } .gamma = g := by
      cases g; cases h2.space; cases h2.size; cases h2.draw; rfl
  · rw [hst]; exact h2
  · intro a ha
    rw [← State.store_byteAt, hst]; exact h3 a ha

end Sys2Proof.Machine
end

