-- ==== Sys2Proof/Laws/Rounds.lean ====
section
/-! SUPPORT. The three rounds: what a pass over a window answers, in closed form. -/

namespace Sys2Proof.Machine

open Safety

/-- `t` is `s` after a pass rewrote the first k positions of the window at `off` by F: only DATA and scratch registers
differ, and in DATA only those bytes. -/
structure DataPass (s : State) (off k : Nat) (F : Nat → Byte → Byte) (t : State) : Prop where
  rest : t = { s with data := t.data, scratch := t.scratch }
  upd : Store.Updated (s.store .data) (t.store .data) (fun a => off ≤ a ∧ a < off + k)
  bytes : ∀ i, i < k → t.byteAt .data (off + i) = F i (s.byteAt .data (off + i))

/-- A store that came from DATA by writes, put back into the state. -/
theorem store_data_of_updated {s : State} {d : Store} {p : Nat → Prop} {x : Scratch}
    (h : Store.Updated (s.store .data) d p) : State.store { s with data := d.cells, scratch := x } .data = d := by
  cases d; cases h.space; cases h.size; cases h.draw; rfl

theorem DataPass.of_updated {s : State} {off k : Nat} {F : Nat → Byte → Byte} {d : Store} {x : Scratch}
    (h : Store.Updated (s.store .data) d (fun a => off ≤ a ∧ a < off + k))
    (hb : ∀ i, i < k → d.byteAt (off + i) = F i ((s.store .data).byteAt (off + i))) :
    DataPass s off k F { s with data := d.cells, scratch := x } where
  rest := rfl
  upd := by rw [store_data_of_updated h]; exact h
  bytes := fun i hi => by
    rw [← State.store_byteAt, store_data_of_updated h]; exact hb i hi

/-! ## Round 1 -/

theorem foldRnd1_eq (s : State) : foldBytes (s.store .gamma).read rnd1Reduce 255 0 ⟨0x00, 0x00⟩ =
    .ok ⟨xorOf (s.byteAt .gamma) 255, sumOf (s.byteAt .gamma) 255⟩ :=
  foldBytes_eq (rd := (s.store .gamma).read) (f := rnd1Reduce) (g := s.byteAt .gamma)
    (R := fun m => ⟨xorOf (s.byteAt .gamma) m, sumOf (s.byteAt .gamma) m⟩) (N := 255)
    (fun _ hm => ⟨Store.read_inside (inside_gamma s hm), rfl⟩) 255 0 le_rfl

/-- Multiplying by 0x01 leaves the sum, multiplying by 0xFF negates it (spec/30_encoding.md R98). -/
theorem mul_dirByte_encrypt (gs : Byte) : gs * dirByte .encrypt = gs := by
  show gs * 1#8 = gs
  exact BitVec.mul_one gs

theorem mul_dirByte_decrypt (gs : Byte) : gs * dirByte .decrypt = -gs := by
  have h : dirByte .decrypt = -(1#8) := by decide
  rw [h, BitVec.mul_neg, BitVec.mul_one]

theorem rnd1Byte_eq (g : Nat → Byte) (dir : Dir) (i : Nat) (b : Byte) :
    rnd1Byte ⟨xorOf g 255, sumOf g 255 * dirByte dir⟩ i b = round1Out g dir i b := by
  cases dir
  · simp only [rnd1Byte, round1Out, mul_dirByte_encrypt]
  · simp only [rnd1Byte, round1Out, mul_dirByte_decrypt]

theorem round1_eq {s : State} {off n : Nat} (dir : Dir)
    (hin : ∀ i, i < n → inside s.params.dataMax (off + i) = true) :
    ∃ (r : Rnd1Regs) (t : State), round1 off n dir s = .ok t ∧ t.scratch = s.scratch.withRnd1 r ∧
      DataPass s off n (round1Out (s.byteAt .gamma) dir) t := by
  obtain ⟨r, d, hr, hU, hb, hs⟩ := sweep_done (body := rnd1Pos) (d := s.store .data) (off := off) (n := n)
    (r := ⟨xorOf (s.byteAt .gamma) 255, sumOf (s.byteAt .gamma) 255 * dirByte dir⟩)
    (P := fun _ r => r = ⟨xorOf (s.byteAt .gamma) 255, sumOf (s.byteAt .gamma) 255 * dirByte dir⟩)
    (F := round1Out (s.byteAt .gamma) dir) rfl hin
    (by
      rintro i hi r b rfl
      exact ⟨_, by rw [rnd1Pos, rnd1Byte_eq], rfl⟩)
  refine ⟨r, { s with data := d.cells, scratch := s.scratch.withRnd1 r }, ?_, rfl, DataPass.of_updated hU hb⟩
  simp only [round1, foldRnd1_eq, hs]

/-! ## Round 2 -/

/-- The cursor before position i: the closed form of R175 for `gi` itself. -/
def cursorAt (g : Nat → Byte) (i : Nat) : Nat :=
  match firstZero g with
  | some z => if i = 0 then 0 else (i - 1) % z + 1
  | none => i

theorem firstZero_some {g : Nat → Byte} {z : Nat} (h : firstZero g = some z) :
    1 ≤ z ∧ z ≤ 254 ∧ g z = 0x00 ∧ ∀ y, 1 ≤ y → y < z → g y ≠ 0x00 := by
  obtain ⟨hz, as, bs, hab, hnot⟩ := List.find?_eq_some_iff_append.mp h
  have hmem : z ∈ List.range' 1 254 := by rw [hab]; simp
  rw [List.mem_range'_1] at hmem
  refine ⟨hmem.1, by omega, by simpa using hz, fun y hy1 hy2 => ?_⟩
  have hy : y ∈ List.range' 1 254 := List.mem_range'_1.mpr ⟨hy1, by omega⟩
  rw [hab, List.mem_append, List.mem_cons] at hy
  have hsorted : List.Pairwise (· < ·) (as ++ z :: bs) := hab ▸ List.pairwise_lt_range'
  rcases hy with hy | rfl | hy
  · simpa using hnot y hy
  · omega
  · have := (List.pairwise_cons.mp (List.pairwise_append.mp hsorted).2.1).1 y hy
    omega

theorem firstZero_none {g : Nat → Byte} : firstZero g = none ↔ ∀ z, 1 ≤ z → z ≤ 254 → g z ≠ 0x00 := by
  simp only [firstZero, List.find?_eq_none, List.mem_range'_1, beq_iff_eq]
  exact ⟨fun h z h1 h2 => h z ⟨h1, by omega⟩, fun h z hz => h z hz.1 (by omega)⟩

/-- One cursor step, while the cursor is not at 255: it gives the raw key byte of R175. -/
theorem gammaCursor_eq (s : State) {i : Nat} (hi : cursorAt (s.byteAt .gamma) i ≠ 255)
    (hi' : firstZero (s.byteAt .gamma) = none → i < 255) :
    gammaCursor (s.store .gamma) (cursorAt (s.byteAt .gamma) i) =
      .ok (rawKey (s.byteAt .gamma) i, cursorAt (s.byteAt .gamma) (i + 1)) := by
  have hrd : ∀ a, a < 255 → (s.store .gamma).read a = .ok (s.byteAt .gamma a) :=
    fun a ha => Store.read_inside (inside_gamma s ha)
  generalize hg : s.byteAt .gamma = g at *
  cases hz : firstZero g with
  | none =>
    have hlt := hi' hz
    have hne := firstZero_none.mp hz
    simp only [cursorAt, rawKey, hz, gammaCursor, hrd i hlt, hrd 0 (by omega)]
    by_cases h0 : i = 0
    · subst h0; split
      · rfl
      · rfl
    · rw [if_neg (hne i (by omega) (by omega))]
  | some z =>
    obtain ⟨hz1, hz2, hz0, hzn⟩ := firstZero_some hz
    have hmod : ∀ k, k % z < z := fun k => Nat.mod_lt _ (by omega)
    simp only [cursorAt, rawKey, hz, gammaCursor, Nat.add_sub_cancel, Nat.add_one_ne_zero, if_false]
    by_cases h0 : i = 0
    · subst h0
      simp only [if_true, hrd 0 (by omega), Nat.zero_mod, Nat.zero_add]
      split <;> rfl
    · have hsucc : i % z = if (i - 1) % z + 1 = z then 0 else (i - 1) % z + 1 := by
        obtain ⟨j, rfl⟩ : ∃ j, i = j + 1 := ⟨i - 1, by omega⟩
        rw [Nat.add_sub_cancel, Nat.add_mod_eq_ite]
        have := hmod j
        have h1 : 1 % z = if z = 1 then 0 else 1 := by
          split
          · subst_vars; rfl
          · exact Nat.mod_eq_of_lt (by omega)
        rw [h1]
        split_ifs <;> omega
      have hlt := hmod (i - 1)
      rw [if_neg h0, hrd _ (by omega), hrd 0 (by omega)]
      simp only [hsucc]
      by_cases hw : (i - 1) % z + 1 = z
      · rw [if_pos hw, hw, hz0]; simp
      · rw [if_neg hw]
        rw [if_neg (hzn _ (by omega) (by omega))]

theorem cursorAt_ne {g : Nat → Byte} {i : Nat} (h : ¬ (firstZero g = none ∧ i = 255)) : cursorAt g i ≠ 255 := by
  unfold cursorAt
  cases hz : firstZero g with
  | none => exact fun he => h ⟨hz, he⟩
  | some z =>
    obtain ⟨h1, h2, -, -⟩ := firstZero_some hz
    have := Nat.mod_lt (i - 1) (show z > 0 by omega)
    simp only
    split <;> omega

/-- What Round 2 keeps at position i: the cursor and the rolling IV in closed form. -/
def Rnd2At (g : Nat → Byte) (iv0 : Byte) (n i : Nat) (r : Rnd2Regs) : Prop :=
  r.gi = cursorAt g i ∧ r.riv = ivAt iv0 n i

theorem rnd2Pos_write (s : State) {iv0 pwh : Byte} {dir : Dir} {n i : Nat} {r : Rnd2Regs} (b : Byte)
    (hr : Rnd2At (s.byteAt .gamma) iv0 n i r) (hi : firstZero (s.byteAt .gamma) = none → i < 255) :
    ∃ r', rnd2Pos (s.store .gamma) pwh dir (n - i) i r b =
        .write r' (round2Out (s.byteAt .gamma) iv0 pwh dir n i b) ∧ Rnd2At (s.byteAt .gamma) iv0 n (i + 1) r' := by
  have hne : cursorAt (s.byteAt .gamma) i ≠ 255 := cursorAt_ne (fun ⟨h1, h2⟩ => by have := hi h1; omega)
  have hriv : ror8 (ivAt iv0 n i) (n - i) = ivAt iv0 n (i + 1) := by rw [ivAt, ror8_ror8]; rfl
  simp only [rnd2Pos, hr.1, if_neg hne, gammaCursor_eq s hne hi]
  cases dir <;> simp only [round2Out, rnd2Mix, rnd2Unmix, hr.2]
  · exact ⟨_, rfl, rfl, hriv⟩
  · exact ⟨_, rfl, rfl, hriv⟩

theorem not_overruns_iff {g : Nat → Byte} {n : Nat} : ¬ overruns g n ↔ (firstZero g = none → n < 256) := by
  unfold overruns
  rw [← firstZero_none]
  exact ⟨fun h hz => by by_contra hn; exact h ⟨hz, by omega⟩, fun h ⟨hz, hn⟩ => by have := h hz; omega⟩

theorem round2_eq {s : State} {off n : Nat} (iv0 pwh : Byte) (dir : Dir)
    (hin : ∀ i, i < n → inside s.params.dataMax (off + i) = true) (ho : ¬ overruns (s.byteAt .gamma) n) :
    ∃ (r : Rnd2Regs) (t : State), round2 off n iv0 pwh dir s = .ok t ∧ t.scratch = s.scratch.withRnd2 r ∧
      DataPass s off n (round2Out (s.byteAt .gamma) iv0 pwh dir n) t := by
  rw [not_overruns_iff] at ho
  obtain ⟨r, d, -, hU, hb, hs⟩ := sweep_done (body := rnd2Pos (s.store .gamma) pwh dir) (d := s.store .data) (off := off)
    (n := n) (r := s.scratch.rnd2Start iv0) (P := Rnd2At (s.byteAt .gamma) iv0 n)
    (F := round2Out (s.byteAt .gamma) iv0 pwh dir n)
    ⟨by simp only [cursorAt, Scratch.rnd2Start]; split <;> simp, by simp [ivAt, countdownSum, Scratch.rnd2Start]⟩ hin
    (fun i hi r b hr => rnd2Pos_write s b hr (fun hz => by have := ho hz; omega))
  refine ⟨r, { s with data := d.cells, scratch := s.scratch.withRnd2 r }, ?_, rfl, DataPass.of_updated hU hb⟩
  simp only [round2, hs]

/-- The overrun: positions 0 to 254 are transformed, then the pass raises (R176). -/
theorem round2_overrun {s : State} {off n : Nat} (iv0 pwh : Byte) (dir : Dir)
    (hin : ∀ i, i < n → inside s.params.dataMax (off + i) = true) (ho : overruns (s.byteAt .gamma) n) :
    ∃ (r : Rnd2Regs) (t : State), round2 off n iv0 pwh dir s = .raised .grange t ∧ t.scratch = s.scratch.withRnd2 r ∧
      DataPass s off 255 (round2Out (s.byteAt .gamma) iv0 pwh dir n) t := by
  have hz := firstZero_none.mpr ho.1
  obtain ⟨r, d, hU, hb, hs⟩ := sweep_raised (body := rnd2Pos (s.store .gamma) pwh dir) (d := s.store .data) (off := off)
    (n := n) (r := s.scratch.rnd2Start iv0) (P := Rnd2At (s.byteAt .gamma) iv0 n)
    (F := round2Out (s.byteAt .gamma) iv0 pwh dir n) (e := .grange) 255 (by have := ho.2; omega)
    ⟨by simp only [cursorAt, Scratch.rnd2Start]; split <;> simp, by simp [ivAt, countdownSum, Scratch.rnd2Start]⟩ hin
    (fun i hi r b hr => rnd2Pos_write s b hr (fun _ => hi))
    (fun r b hr => by
      have hgi : r.gi = 255 := by rw [hr.1]; simp [cursorAt, hz]
      exact ⟨_, by simp only [rnd2Pos, hgi, if_true]; rfl⟩)
  refine ⟨r, { s with data := d.cells, scratch := s.scratch.withRnd2 r }, ?_, rfl, DataPass.of_updated hU hb⟩
  simp only [round2, hs]

/-! ## Round 3 -/

theorem keyByte_eq {d : Store} {n2 : Nat} (h : lenFits d.size n2 = true) (i : Nat) :
    keyByte d n2 i = .ok (keyAt d.byteAt n2 i) := by
  unfold keyByte keyAt padded
  split
  · exact Store.read_inside (inside_of_fits h ‹_›)
  · rfl

theorem round3_eq {s : State} {off n : Nat} (gh : Byte) (dir : Dir)
    (hin : ∀ i, i < n → inside s.params.dataMax (off + i) = true) (hl : lenFits s.params.pwMax s.pw2len = true) :
    ∃ (r : Rnd3Regs) (t : State), round3 off n gh dir s = .ok t ∧ t.scratch = s.scratch.withRnd3 r ∧
      DataPass s off n (round3Out (s.byteAt .pw2) s.pw2len gh dir n) t := by
  obtain ⟨r, d, -, hU, hb, hs⟩ := sweep_done (body := rnd3Pos (s.store .pw2) s.pw2len dir) (d := s.store .data)
    (off := off) (n := n) (r := s.scratch.rnd3Start gh)
    (P := fun i r => r.rst = rstAt (s.byteAt .pw2) s.pw2len gh n i)
    (F := round3Out (s.byteAt .pw2) s.pw2len gh dir n) rfl hin
    (by
      intro i hi r b hr
      simp only [rnd3Pos, keyByte_eq (d := s.store .pw2) hl]
      rw [hr]
      cases dir
      · exact ⟨_, rfl, rfl⟩
      · exact ⟨_, rfl, rfl⟩)
  refine ⟨r, { s with data := d.cells, scratch := s.scratch.withRnd3 r }, ?_, rfl, DataPass.of_updated hU hb⟩
  simp only [round3, hs]

end Sys2Proof.Machine
end

