-- ==== Sys2Proof/Laws/Commands.lean ====
section
/-! SUPPORT. The commands: how each ends, and what its body does, said once. -/

namespace Sys2Proof.Machine

open Safety

/-! ## Checks, body, end -/

theorem fits_iff (c : Capacity) (n : Nat) : Fits c n ↔ lenFits c n = true := by
  cases c <;> simp [Fits, lenFits]

/-- The body of a command. -/
def bodyOf : Instr → State → Run
  | .kgen => fun s => (generate s).andThen fun s => .ok (s.setKeyv false)
  | .dgstG => fun s => (digestGamma s).andThen fun s => .ok (s.setKeyv false)
  | .dgstP => fun s => (digestPassword s).andThen fun s => .ok (s.setKeyv false)
  | .rnd1E => fun s => round1 0 s.len .encrypt s
  | .rnd1D => fun s => round1 0 s.len .decrypt s
  | .rnd2E => fun s => round2 0 s.len s.iv s.pwhash .encrypt s
  | .rnd2D => fun s => round2 0 s.len s.iv s.pwhash .decrypt s
  | .rnd3E => fun s => round3 0 s.len s.ghash .encrypt s
  | .rnd3D => fun s => round3 0 s.len s.ghash .decrypt s
  | .init => initBody
  | .enc => encBody
  | .dec => decBody

theorem exec_eq_command (i : Instr) (s : State) : exec i s = command i (bodyOf i) s := by
  cases i <;> rfl

theorem exec_of_check {i : Instr} {s : State} (h : precheck i s ≠ .none) :
    exec i s = .next (s.enterFault (precheck i s)) := by
  rw [exec_eq_command, command]
  cases hp : precheck i s <;> first | rfl | exact absurd hp h

theorem exec_of_body {i : Instr} {s : State} (h : precheck i s = .none) : exec i s = (bodyOf i s).settle := by
  rw [exec_eq_command, command, h]

/-- What the checks of spec/60_exceptions.md R246 establish when they pass. -/
structure Checked (i : Instr) (s : State) : Prop where
  pw1 : usesPw1len i = true → lenFits s.params.pwMax s.pw1len = true
  pw2 : usesPw2len i = true → lenFits s.params.pwMax s.pw2len = true
  len : usesLen i = true → lenFits s.params.dataMax s.len = true
  key : usesKey i = true → s.status.keyv = true
  iv : usesIvByte i = true → 1 ≤ s.len

theorem precheck_none_iff (i : Instr) (s : State) : precheck i s = .none ↔ Checked i s := by
  have h : Checked i s ↔ (usesPw1len i = true → lenFits s.params.pwMax s.pw1len = true) ∧
      (usesPw2len i = true → lenFits s.params.pwMax s.pw2len = true) ∧
      (usesLen i = true → lenFits s.params.dataMax s.len = true) ∧
      (usesKey i = true → s.status.keyv = true) ∧ (usesIvByte i = true → 1 ≤ s.len) :=
    ⟨fun h => ⟨h.pw1, h.pw2, h.len, h.key, h.iv⟩, fun ⟨a, b, c, d, e⟩ => ⟨a, b, c, d, e⟩⟩
  have hlen : 1 ≤ s.len ↔ ¬ (s.len == 0) = true := by rw [beq_iff_eq]; omega
  rw [h, hlen]
  unfold precheck
  generalize usesPw1len i = a1, lenFits s.params.pwMax s.pw1len = b1, usesPw2len i = a2,
    lenFits s.params.pwMax s.pw2len = b2, usesLen i = a3, lenFits s.params.dataMax s.len = b3, usesKey i = a4,
    s.status.keyv = b4, usesIvByte i = a5, (s.len == 0) = b5
  cases a1 <;> cases b1 <;> simp <;> cases a2 <;> cases b2 <;> simp <;> cases a3 <;> cases b3 <;> simp <;>
    cases a4 <;> cases b4 <;> simp

theorem precheck_ne_grange (i : Instr) (s : State) : precheck i s ≠ .grange ∧ precheck i s ≠ .illcmd := by
  unfold precheck
  split_ifs <;> simp

/-- The window of a command whose checks passed lies in DATA. -/
theorem window_inside {s : State} {off n : Nat} (h : lenFits s.params.dataMax s.len = true) (hn : off + n ≤ s.len) :
    ∀ i, i < n → inside s.params.dataMax (off + i) = true :=
  fun _ hi => inside_of_fits h (by omega)

/-! ## Passes one after another -/

theorem DataPass.byteAt_other {s t : State} {off k : Nat} {F : Nat → Byte → Byte} (h : DataPass s off k F t) {sp : Space}
    (hsp : sp ≠ .data) : t.byteAt sp = s.byteAt sp := by
  funext a
  rw [h.rest]
  cases sp <;> first | rfl | exact absurd rfl hsp

theorem DataPass.outside {s t : State} {off k : Nat} {F : Nat → Byte → Byte} (h : DataPass s off k F t) {a : Nat}
    (ha : ¬ (off ≤ a ∧ a < off + k)) : t.byteAt .data a = s.byteAt .data a := h.upd.same a ha

/-- A pass starts as well from a state that differs in the stage index only. -/
theorem DataPass.of_atStage {s t : State} {off k : Nat} {F : Nat → Byte → Byte} {q : Fin 4}
    (h : DataPass (s.atStage q) off k F t) : DataPass s off k F t := by
  refine ⟨?_, h.upd, h.bytes⟩
  rw [h.rest]; rfl

theorem DataPass.trans {s t u : State} {off k k' : Nat} {F G : Nat → Byte → Byte} (h : DataPass s off k F t)
    (h' : DataPass t off k' G u) (hk : k' ≤ k) :
    DataPass s off k (fun i b => if i < k' then G i (F i b) else F i b) u where
  rest := by rw [h'.rest, h.rest]
  upd := (h.upd.trans h'.upd).mono (by rintro a (h | h) <;> omega)
  bytes := fun i hi => by
    by_cases hlt : i < k'
    · rw [if_pos hlt, h'.bytes i hlt, h.bytes i hi]
    · rw [if_neg hlt, h'.outside (by omega), h.bytes i hi]

/-- A pass with a change of the scratch registers after it. -/
theorem DataPass.scratch {s t : State} {off k : Nat} {F : Nat → Byte → Byte} (h : DataPass s off k F t) (x : Scratch) :
    DataPass s off k F { t with scratch := x } := by
  refine ⟨?_, h.upd, h.bytes⟩
  rw [h.rest]

theorem DataPass.congr {s t : State} {off k : Nat} {F G : Nat → Byte → Byte} (h : DataPass s off k F t)
    (hFG : ∀ i, i < k → ∀ b, F i b = G i b) : DataPass s off k G t :=
  ⟨h.rest, h.upd, fun i hi => by rw [h.bytes i hi, hFG i hi]⟩

theorem ok_andThen (s : State) (f : State → Run) : (Run.ok s).andThen f = f s := rfl

theorem raised_andThen (e : Err) (s : State) (f : State → Run) : (Run.raised e s).andThen f = .raised e s := rfl

/-! ## The bodies of the commands that transform DATA

Each is: a pass over the window with the function of the spec's closed form, ending well; or, for the commands that run
Round 2, the overrun. `BodyPass i s k F r` says that the body ended as `r` with k positions rewritten by F. -/

/-- The body ended with the state `t`, a pass over the command's window, its scratch registers in the frame. -/
def BodyPass (i : Instr) (s : State) (F : Nat → Byte → Byte) (t : State) : Prop :=
  DataPass s (windowOff i) (windowLen i s) F t ∧ ScratchFrame i s.scratch t.scratch

/-- What Rounds 1, 2, 3 do at a position when they run with the state's own operands. -/
def stageOut (s : State) (i : Instr) : Nat → Byte → Byte :=
  match i with
  | .rnd1E => round1Out (s.byteAt .gamma) .encrypt
  | .rnd1D => round1Out (s.byteAt .gamma) .decrypt
  | .rnd2E => round2Out (s.byteAt .gamma) s.iv s.pwhash .encrypt s.len
  | .rnd2D => round2Out (s.byteAt .gamma) s.iv s.pwhash .decrypt s.len
  | .rnd3E => round3Out (s.byteAt .pw2) s.pw2len s.ghash .encrypt s.len
  | .rnd3D => round3Out (s.byteAt .pw2) s.pw2len s.ghash .decrypt s.len
  | .enc => fun i b => round3Out (s.byteAt .pw2) s.pw2len s.ghash .encrypt s.len i
      (round2Out (s.byteAt .gamma) s.iv s.pwhash .encrypt s.len i (round1Out (s.byteAt .gamma) .encrypt i b))
  | .dec => fun i b => round1Out (s.byteAt .gamma) .decrypt i
      (round2Out (s.byteAt .gamma) (s.byteAt .data 0) s.pwhash .decrypt (s.len - 1) i
        (round3Out (s.byteAt .pw2) s.pw2len s.ghash .decrypt (s.len - 1) i b))
  | .kgen | .dgstG | .dgstP | .init => fun _ b => b

/-- What the window holds after the overrun: Round 2 reached its first 255 positions, later stages none. -/
def overrunOut (s : State) (i : Instr) : Nat → Byte → Byte :=
  match i with
  | .rnd2E => fun a b => if a < 255 then round2Out (s.byteAt .gamma) s.iv s.pwhash .encrypt s.len a b else b
  | .rnd2D => fun a b => if a < 255 then round2Out (s.byteAt .gamma) s.iv s.pwhash .decrypt s.len a b else b
  | .enc => fun a b =>
      if a < 255 then round2Out (s.byteAt .gamma) s.iv s.pwhash .encrypt s.len a (round1Out (s.byteAt .gamma) .encrypt a b)
      else round1Out (s.byteAt .gamma) .encrypt a b
  | .dec => fun a b =>
      if a < 255 then round2Out (s.byteAt .gamma) (s.byteAt .data 0) s.pwhash .decrypt (s.len - 1) a
        (round3Out (s.byteAt .pw2) s.pw2len s.ghash .decrypt (s.len - 1) a b)
      else round3Out (s.byteAt .pw2) s.pw2len s.ghash .decrypt (s.len - 1) a b
  | .kgen | .dgstG | .dgstP | .rnd1E | .rnd1D | .rnd3E | .rnd3D | .init => fun _ b => b

/-- The commands that run Round 2. -/
def runsRound2 : Instr → Bool
  | .rnd2E | .rnd2D | .enc | .dec => true
  | .kgen | .dgstG | .dgstP | .rnd1E | .rnd1D | .rnd3E | .rnd3D | .init => false

/-- A pass over the first 255 positions is one over the whole window that leaves the others as they are. -/
theorem DataPass.extend {s t : State} {off k n : Nat} {F : Nat → Byte → Byte} (h : DataPass s off k F t) (hk : k ≤ n) :
    DataPass s off n (fun i b => if i < k then F i b else b) t where
  rest := h.rest
  upd := h.upd.mono (by intro a ha; omega)
  bytes := fun i hi => by
    by_cases hlt : i < k
    · rw [if_pos hlt, h.bytes i hlt]
    · rw [if_neg hlt, h.outside (by omega)]

theorem round_body_done {i : Instr} {s : State} (hi : IsRound i) (hc : Checked i s)
    (ho : runsRound2 i = true → ¬ overruns (s.byteAt .gamma) (windowLen i s)) :
    ∃ t, bodyOf i s = .ok t ∧ BodyPass i s (stageOut s i) t := by
  cases i <;> simp only [IsRound, List.mem_cons, List.not_mem_nil, or_false, reduceCtorEq, or_self] at hi
  case rnd1E =>
    obtain ⟨r, t, h1, h2, h3⟩ := round1_eq .encrypt (window_inside (hc.len rfl) (by omega : 0 + s.len ≤ s.len))
    exact ⟨t, h1, h3, by rw [h2]; rfl⟩
  case rnd1D =>
    obtain ⟨r, t, h1, h2, h3⟩ := round1_eq .decrypt (window_inside (hc.len rfl) (by omega : 0 + s.len ≤ s.len))
    exact ⟨t, h1, h3, by rw [h2]; rfl⟩
  case rnd2E =>
    obtain ⟨r, t, h1, h2, h3⟩ := round2_eq s.iv s.pwhash .encrypt
      (window_inside (hc.len rfl) (by omega : 0 + s.len ≤ s.len)) (ho rfl)
    exact ⟨t, h1, h3, by rw [h2]; rfl⟩
  case rnd2D =>
    obtain ⟨r, t, h1, h2, h3⟩ := round2_eq s.iv s.pwhash .decrypt
      (window_inside (hc.len rfl) (by omega : 0 + s.len ≤ s.len)) (ho rfl)
    exact ⟨t, h1, h3, by rw [h2]; rfl⟩
  case rnd3E =>
    obtain ⟨r, t, h1, h2, h3⟩ := round3_eq s.ghash .encrypt
      (window_inside (hc.len rfl) (by omega : 0 + s.len ≤ s.len)) (hc.pw2 rfl)
    exact ⟨t, h1, h3, by rw [h2]; rfl⟩
  case rnd3D =>
    obtain ⟨r, t, h1, h2, h3⟩ := round3_eq s.ghash .decrypt
      (window_inside (hc.len rfl) (by omega : 0 + s.len ≤ s.len)) (hc.pw2 rfl)
    exact ⟨t, h1, h3, by rw [h2]; rfl⟩
  case enc =>
    have hw := window_inside (hc.len rfl) (by omega : 0 + s.len ≤ s.len)
    obtain ⟨r1, t1, a1, b1, c1⟩ := round1_eq (s := s.atStage 0) (off := 0) (n := s.len) .encrypt hw
    have c1' := c1.of_atStage
    have p1 : t1.params = s.params := by rw [c1'.rest]
    have l1 : t1.len = s.len := by rw [c1'.rest]
    have v1 : t1.iv = s.iv := by rw [c1'.rest]
    have w1 : t1.pwhash = s.pwhash := by rw [c1'.rest]
    have g1 := c1'.byteAt_other (sp := .gamma) (by simp)
    have q1 := c1'.byteAt_other (sp := .pw2) (by simp)
    obtain ⟨r2, t2, a2, b2, c2⟩ := round2_eq (s := t1.atStage 1) (off := 0) (n := s.len) s.iv s.pwhash .encrypt
      (by simpa [p1] using hw) (by rw [State.atStage_byteAt_fun, g1]; exact ho rfl)
    have c2' := c2.of_atStage
    have p2 : t2.params = s.params := by rw [c2'.rest, p1]
    have l2 : t2.len = s.len := by rw [c2'.rest, l1]
    have m2 : t2.pw2len = s.pw2len := by rw [c2'.rest, c1'.rest]
    have h2 : t2.ghash = s.ghash := by rw [c2'.rest, c1'.rest]
    have q2 := c2'.byteAt_other (sp := .pw2) (by simp)
    obtain ⟨r3, t3, a3, b3, c3⟩ := round3_eq (s := t2.atStage 2) (off := 0) (n := s.len) s.ghash .encrypt
      (by simpa [p2] using hw) (by simpa [p2, m2] using hc.pw2 rfl)
    have c3' := c3.of_atStage
    refine ⟨t3.atStage 3, ?_, ?_, ?_⟩
    · show encBody s = _
      simp only [encBody, a1, ok_andThen, l1, v1, w1, a2, l2, h2, a3]
    · refine (((c1'.trans c2' le_rfl).trans c3' le_rfl).scratch _).congr fun i hi b => ?_
      have hi' : i < s.len := hi
      simp only [if_pos hi', stageOut, State.atStage_byteAt_fun, g1, q1, q2, State.atStage_pw2len, m2]
    · rw [State.atStage_scratch, b3, State.atStage_scratch, b2, State.atStage_scratch, b1]; rfl
  case dec =>
    have hlen : 1 ≤ s.len := hc.iv rfl
    have hw := window_inside (hc.len rfl) (by omega : 1 + (s.len - 1) ≤ s.len)
    have hiv : (s.store .data).read 0 = .ok (s.byteAt .data 0) :=
      Store.read_inside (inside_of_fits (hc.len rfl) (by omega))
    obtain ⟨r1, t1, a1, b1, c1⟩ := round3_eq (s := s.atStage 0) (off := 1) (n := s.len - 1) s.ghash .decrypt hw (hc.pw2 rfl)
    have c1' := c1.of_atStage
    have p1 : t1.params = s.params := by rw [c1'.rest]
    have l1 : t1.len = s.len := by rw [c1'.rest]
    have w1 : t1.pwhash = s.pwhash := by rw [c1'.rest]
    have g1 := c1'.byteAt_other (sp := .gamma) (by simp)
    obtain ⟨r2, t2, a2, b2, c2⟩ := round2_eq (s := t1.atStage 1) (off := 1) (n := s.len - 1) (s.byteAt .data 0) s.pwhash
      .decrypt (by simpa [p1] using hw) (by rw [State.atStage_byteAt_fun, g1]; exact ho rfl)
    have c2' := c2.of_atStage
    have p2 : t2.params = s.params := by rw [c2'.rest, p1]
    have l2 : t2.len = s.len := by rw [c2'.rest, l1]
    have g2 := c2'.byteAt_other (sp := .gamma) (by simp)
    obtain ⟨r3, t3, a3, b3, c3⟩ := round1_eq (s := t2.atStage 2) (off := 1) (n := s.len - 1) .decrypt
      (by simpa [p2] using hw)
    have c3' := c3.of_atStage
    refine ⟨t3.atStage 3, ?_, ?_, ?_⟩
    · show decBody s = _
      simp only [decBody, hiv, a1, ok_andThen, l1, w1, a2, l2, a3]
    · refine (((c1'.trans c2' le_rfl).trans c3' le_rfl).scratch _).congr fun i hi b => ?_
      have hi' : i < s.len - 1 := hi
      simp only [if_pos hi', stageOut, State.atStage_byteAt_fun, g1, g2, State.atStage_pw2len]
    · rw [State.atStage_scratch, b3, State.atStage_scratch, b2, State.atStage_scratch, b1]; rfl

theorem round_body_overrun {i : Instr} {s : State} (hi : runsRound2 i = true) (hc : Checked i s)
    (ho : overruns (s.byteAt .gamma) (windowLen i s)) :
    ∃ t, bodyOf i s = .raised .grange t ∧ BodyPass i s (overrunOut s i) t := by
  cases i <;> simp only [runsRound2, Bool.false_eq_true] at hi
  case rnd2E =>
    obtain ⟨r, t, h1, h2, h3⟩ := round2_overrun s.iv s.pwhash .encrypt
      (window_inside (hc.len rfl) (by omega : 0 + s.len ≤ s.len)) ho
    have h256 : 256 ≤ s.len := ho.2
    exact ⟨t, h1, h3.extend (by show 255 ≤ s.len; omega), by rw [h2]; rfl⟩
  case rnd2D =>
    obtain ⟨r, t, h1, h2, h3⟩ := round2_overrun s.iv s.pwhash .decrypt
      (window_inside (hc.len rfl) (by omega : 0 + s.len ≤ s.len)) ho
    have h256 : 256 ≤ s.len := ho.2
    exact ⟨t, h1, h3.extend (by show 255 ≤ s.len; omega), by rw [h2]; rfl⟩
  case enc =>
    have hw := window_inside (hc.len rfl) (by omega : 0 + s.len ≤ s.len)
    have h256 : 256 ≤ s.len := ho.2
    obtain ⟨r1, t1, a1, b1, c1⟩ := round1_eq (s := s.atStage 0) (off := 0) (n := s.len) .encrypt hw
    have c1' := c1.of_atStage
    have p1 : t1.params = s.params := by rw [c1'.rest]
    have l1 : t1.len = s.len := by rw [c1'.rest]
    have v1 : t1.iv = s.iv := by rw [c1'.rest]
    have w1 : t1.pwhash = s.pwhash := by rw [c1'.rest]
    have g1 := c1'.byteAt_other (sp := .gamma) (by simp)
    obtain ⟨r2, t2, a2, b2, c2⟩ := round2_overrun (s := t1.atStage 1) (off := 0) (n := s.len) s.iv s.pwhash .encrypt
      (by simpa [p1] using hw) (by rw [State.atStage_byteAt_fun, g1]; exact ho)
    have c2' := c2.of_atStage
    refine ⟨t2, ?_, ?_, ?_⟩
    · show encBody s = _
      simp only [encBody, a1, ok_andThen, l1, v1, w1, a2, raised_andThen]
    · refine (c1'.trans c2' (by omega)).congr fun i hi b => ?_
      simp only [overrunOut, State.atStage_byteAt_fun, g1]
    · rw [b2, State.atStage_scratch, b1]; rfl
  case dec =>
    have hlen : 1 ≤ s.len := hc.iv rfl
    have hw := window_inside (hc.len rfl) (by omega : 1 + (s.len - 1) ≤ s.len)
    have h256 : 256 ≤ s.len - 1 := ho.2
    have hiv : (s.store .data).read 0 = .ok (s.byteAt .data 0) :=
      Store.read_inside (inside_of_fits (hc.len rfl) (by omega))
    obtain ⟨r1, t1, a1, b1, c1⟩ := round3_eq (s := s.atStage 0) (off := 1) (n := s.len - 1) s.ghash .decrypt hw (hc.pw2 rfl)
    have c1' := c1.of_atStage
    have p1 : t1.params = s.params := by rw [c1'.rest]
    have l1 : t1.len = s.len := by rw [c1'.rest]
    have w1 : t1.pwhash = s.pwhash := by rw [c1'.rest]
    have g1 := c1'.byteAt_other (sp := .gamma) (by simp)
    obtain ⟨r2, t2, a2, b2, c2⟩ := round2_overrun (s := t1.atStage 1) (off := 1) (n := s.len - 1) (s.byteAt .data 0)
      s.pwhash .decrypt (by simpa [p1] using hw) (by rw [State.atStage_byteAt_fun, g1]; exact ho)
    have c2' := c2.of_atStage
    refine ⟨t2, ?_, ?_, ?_⟩
    · show decBody s = _
      simp only [decBody, hiv, a1, ok_andThen, l1, w1, a2, raised_andThen]
    · refine (c1'.trans c2' (by omega)).congr fun i hi b => ?_
      simp only [overrunOut, State.atStage_byteAt_fun, g1, State.atStage_pw2len]
    · rw [b2, State.atStage_scratch, b1]; rfl

/-! ## The commands that build the context -/

/-- `t` is `s` after GAMMA was generated: its cells, the generator's registers, and nothing else. -/
structure Generated (s t : State) : Prop where
  rest : t = { s with gamma := t.gamma, scratch := t.scratch }
  frame : ScratchFrame .kgen s.scratch t.scratch
  upd : Store.Updated (s.store .gamma) (t.store .gamma) (fun a => a < 255)
  bytes : ∀ a, a < 255 → t.byteAt .gamma a = gammaOf (padded (s.byteAt .pw1) s.pw1len) a

theorem generate_ok {s : State} (hl : lenFits s.params.pwMax s.pw1len = true) :
    ∃ t, generate s = .ok t ∧ Generated s t := by
  obtain ⟨r, t, h1, h2, h3, h4⟩ := generate_eq hl
  refine ⟨t, h1, ⟨?_, ?_, h3, h4⟩⟩
  · rw [h2]
  · rw [h2]; rfl

/-- The gamma digest reads indices 0 to 254 only. -/
theorem gammaDigest_congr {g g' : Nat → Byte} (h : ∀ m, m < 255 → g m = g' m) : gammaDigest g = gammaDigest g' := by
  have : ∀ n, n ≤ 255 → gammaDigestRegs g n = gammaDigestRegs g' n := by
    intro n hn
    induction n with
    | zero => rfl
    | succ n ih => simp only [gammaDigestRegs, ih (by omega), h n (by omega)]
  rw [gammaDigest, gammaDigest, this 255 le_rfl]

theorem passwordDigest_congr {g g' : Nat → Byte} (h : ∀ m, m < 255 → g m = g' m) :
    passwordDigest g = passwordDigest g' := by
  have : ∀ n, n ≤ 255 → passwordDigestRegs g n = passwordDigestRegs g' n := by
    intro n hn
    induction n with
    | zero => rfl
    | succ n ih => simp only [passwordDigestRegs, ih (by omega), h n (by omega)]
  rw [passwordDigest, passwordDigest, this 255 le_rfl]

/-- The generator reads the padded password below 255 only. -/
theorem gammaOf_congr {p p' : Nat → Byte} (h : ∀ m, m < 255 → p m = p' m) {m : Nat} (hm : m < 255) :
    gammaOf p m = gammaOf p' m := by
  have hr : ∀ n, n ≤ 125 → genRegs p n = genRegs p' n := by
    intro n hn
    induction n with
    | zero => simp only [genRegs, h 0 (by omega), h 1 (by omega)]
    | succ n ih => simp only [genRegs, ih (by omega), h (2 * n + 2) (by omega), h (2 * n + 3) (by omega)]
  unfold gammaOf
  split
  · simp only [genByte, hr m (by omega), h (2 * m + 2) (by omega), h (2 * m + 3) (by omega)]
  · exact h m hm

theorem exec_kgen_ok {s : State} (hc : Checked .kgen s) : ∃ t, exec .kgen s = .next t.complete ∧
    ∃ u, Generated s u ∧ t = u.setKeyv false := by
  obtain ⟨u, h1, h2⟩ := generate_ok (hc.pw1 rfl)
  refine ⟨u.setKeyv false, ?_, u, h2, rfl⟩
  rw [exec_of_body ((precheck_none_iff _ _).mpr hc)]
  simp only [bodyOf, h1, ok_andThen, Run.settle]

/-- DGST.G has no check (R246). -/
theorem checked_dgstG (s : State) : Checked .dgstG s :=
  (precheck_none_iff _ _).mp rfl

theorem exec_dgstG_ok (s : State) : ∃ r : DguRegs, exec .dgstG s = .next { s with
    ghash := gammaDigest (s.byteAt .gamma), status := completed false, scratch := s.scratch.withDgu r } := by
  obtain ⟨r, h⟩ := digestGamma_eq s
  refine ⟨r, ?_⟩
  rw [exec_of_body ((precheck_none_iff _ _).mpr (checked_dgstG s))]
  simp only [bodyOf, h, ok_andThen, Run.settle]
  rfl

theorem exec_dgstP_ok {s : State} (hc : Checked .dgstP s) : ∃ r : DguRegs, exec .dgstP s = .next { s with
    pwhash := passwordDigest (padded (s.byteAt .pw2) s.pw2len), status := completed false
    scratch := s.scratch.withDgu r } := by
  obtain ⟨r, h⟩ := digestPassword_eq (hc.pw2 rfl)
  refine ⟨r, ?_⟩
  rw [exec_of_body ((precheck_none_iff _ _).mpr hc)]
  simp only [bodyOf, h, ok_andThen, Run.settle]
  rfl

/-- The digests with their results named, so that a later use does not unfold them. -/
theorem digestGamma_ok (s : State) : ∃ (gd : Byte) (r : DguRegs), gd = gammaDigest (s.byteAt .gamma) ∧
    digestGamma s = .ok { s with ghash := gd, scratch := s.scratch.withDgu r } := by
  obtain ⟨r, h⟩ := digestGamma_eq s
  exact ⟨_, r, rfl, h⟩

theorem digestPassword_ok {s : State} (hl : lenFits s.params.pwMax s.pw2len = true) :
    ∃ (pd : Byte) (r : DguRegs), pd = passwordDigest (padded (s.byteAt .pw2) s.pw2len) ∧
      digestPassword s = .ok { s with pwhash := pd, scratch := s.scratch.withDgu r } := by
  obtain ⟨r, h⟩ := digestPassword_eq hl
  exact ⟨_, r, rfl, h⟩

/-- What INIT leaves (R211). -/
structure Initialised (s t : State) : Prop where
  rest : t = { s with gamma := t.gamma, ghash := t.ghash, pwhash := t.pwhash, scratch := t.scratch
                      status := completed true }
  frame : ScratchFrame .init s.scratch t.scratch
  upd : Store.Updated (s.store .gamma) (t.store .gamma) (fun a => a < 255)
  bytes : ∀ a, a < 255 → t.byteAt .gamma a = gammaOf (padded (s.byteAt .pw1) s.pw1len) a
  ghash : t.ghash = gammaDigest (t.byteAt .gamma)
  pwhash : t.pwhash = passwordDigest (padded (s.byteAt .pw2) s.pw2len)

theorem exec_init_ok {s : State} (hc : Checked .init s) : ∃ t, exec .init s = .next t ∧ Initialised s t := by
  obtain ⟨u, h1, h2⟩ := generate_ok (s := s.atStage 0) (hc.pw1 rfl)
  have hpw2 : u.byteAt .pw2 = s.byteAt .pw2 := by funext a; rw [h2.rest]; rfl
  have hl2 : u.pw2len = s.pw2len := by rw [h2.rest]; rfl
  have hp : u.params = s.params := by rw [h2.rest]; rfl
  obtain ⟨gd, r1, hgd, h3⟩ := digestGamma_ok (u.atStage 1)
  obtain ⟨pd, r2, hpd, h4⟩ := digestPassword_ok
    (s := State.atStage { u.atStage 1 with ghash := gd, scratch := (u.atStage 1).scratch.withDgu r1 } 2)
    (by show lenFits u.params.pwMax u.pw2len = true; rw [hp, hl2]; exact hc.pw2 rfl)
  have hpd' : pd = passwordDigest (padded (u.byteAt .pw2) u.pw2len) := hpd
  rw [exec_of_body ((precheck_none_iff _ _).mpr hc)]
  simp only [bodyOf, initBody, h1, ok_andThen, h3, h4, Run.settle]
  refine ⟨_, rfl, ⟨?_, ?_, h2.upd, h2.bytes, hgd, by rw [← hpw2, ← hl2]; exact hpd'⟩⟩
  · obtain ⟨g, x, hu⟩ : ∃ g x, u = { s.atStage 0 with gamma := g, scratch := x } := ⟨_, _, h2.rest⟩
    subst hu
    rfl
  · have hf := h2.frame
    simp only [ScratchFrame] at hf ⊢
    simp only [State.complete_scratch, State.setKeyv_scratch, State.atStage_scratch, Scratch.withDgu]
    rw [hf]; rfl

/-! ## What exec can do -/

/-- The inversion of `exec`: every command answers a next state, in one of these ways. -/
theorem exec_cases (i : Instr) (s : State) :
    (precheck i s ≠ .none ∧ exec i s = .next (s.enterFault (precheck i s))) ∨
    (Checked i s ∧ IsRound i ∧ ¬ (runsRound2 i = true ∧ overruns (s.byteAt .gamma) (windowLen i s)) ∧
      ∃ t, BodyPass i s (stageOut s i) t ∧ exec i s = .next t.complete) ∨
    (Checked i s ∧ runsRound2 i = true ∧ overruns (s.byteAt .gamma) (windowLen i s) ∧
      ∃ t, BodyPass i s (overrunOut s i) t ∧ exec i s = .next (t.enterFault .grange)) ∨
    (i = .kgen ∧ Checked i s ∧ ∃ u, Generated s u ∧ exec i s = .next (u.setKeyv false).complete) ∨
    (i = .dgstG ∧ ∃ r : DguRegs, exec i s = .next { s with
      ghash := gammaDigest (s.byteAt .gamma), status := completed false, scratch := s.scratch.withDgu r }) ∨
    (i = .dgstP ∧ Checked i s ∧ ∃ r : DguRegs, exec i s = .next { s with
      pwhash := passwordDigest (padded (s.byteAt .pw2) s.pw2len), status := completed false
      scratch := s.scratch.withDgu r }) ∨
    (i = .init ∧ Checked i s ∧ ∃ t, Initialised s t ∧ exec i s = .next t) := by
  by_cases hp : precheck i s = .none
  case neg => exact .inl ⟨hp, exec_of_check hp⟩
  have hc := (precheck_none_iff i s).mp hp
  by_cases ho : runsRound2 i = true ∧ overruns (s.byteAt .gamma) (windowLen i s)
  · obtain ⟨t, h1, h2⟩ := round_body_overrun ho.1 hc ho.2
    exact .inr (.inr (.inl ⟨hc, ho.1, ho.2, t, h2, by rw [exec_of_body hp, h1]; rfl⟩))
  by_cases hr : IsRound i
  · obtain ⟨t, h1, h2⟩ := round_body_done hr hc (fun h1 h2 => ho ⟨h1, h2⟩)
    exact .inr (.inl ⟨hc, hr, ho, t, h2, by rw [exec_of_body hp, h1]; rfl⟩)
  cases i <;> simp only [IsRound, List.mem_cons, List.not_mem_nil, or_false, reduceCtorEq, or_self, or_true,
    not_true_eq_false, not_false_eq_true] at hr
  · obtain ⟨t, h1, u, h2, rfl⟩ := exec_kgen_ok hc
    exact .inr (.inr (.inr (.inl ⟨rfl, hc, u, h2, h1⟩)))
  · exact .inr (.inr (.inr (.inr (.inl ⟨rfl, exec_dgstG_ok s⟩))))
  · exact .inr (.inr (.inr (.inr (.inr (.inl ⟨rfl, hc, exec_dgstP_ok hc⟩)))))
  · obtain ⟨t, h1, h2⟩ := exec_init_ok hc
    exact .inr (.inr (.inr (.inr (.inr (.inr ⟨rfl, hc, t, h2, h1⟩)))))

end Sys2Proof.Machine
end

