-- ==== Sys2Proof/Laws/Host.lean ====
section
/-! SUPPORT. The step: whose turn it is, and what a host line can do. -/

namespace Sys2Proof.Machine

open Safety

theorem step_host {s : State} (h : s.nextAgent = .host) : step s = hostStep s.tookTurn := by simp [step, h]

theorem step_engine {s : State} (h : s.nextAgent = .engine) : step s = engineStep s.tookTurn := by simp [step, h]

/-- A byte decodes to a command only if it is the command's match value. -/
theorem eq_encode_of_decode {w : Byte} {i : Instr} (h : decode w = .ok i) : w = encode i := by
  have all : ∀ w : Byte, ∀ i ∈ [Instr.kgen, .dgstG, .dgstP, .rnd1E, .rnd1D, .rnd2E, .rnd2D, .rnd3E, .rnd3D, .init, .enc,
      .dec], decode w = .ok i → w = encode i := by decide +kernel
  exact all w i (by cases i <;> simp) h

/-- What a host write that is a move requires and does. -/
theorem hostWrite_next {t : Target} {v : Nat} {s u : State} (h : hostWrite t v s = .next u) :
    s.status.busy = false ∧ t.exists s.params = true ∧ t.holds v = true ∧ u = hostStore t v s := by
  unfold hostWrite at h
  split at h
  · cases h
  · split at h
    · cases h
    · split at h
      · cases h
      · cases h; simp_all

theorem hostWrite_ok {t : Target} {v : Nat} {s : State} (hb : s.status.busy = false) (he : t.exists s.params = true)
    (hv : t.holds v = true) : hostWrite t v s = .next (hostStore t v s) := by
  simp [hostWrite, hb, he, hv]

/-- What a host read that is a move does. -/
theorem hostRead_next {t : Target} {s u : State} (h : hostRead t s = .next u) :
    mayRead s t = true ∧ t.exists s.params = true ∧ u = { s with hostLog := (t, hostValue s t) :: s.hostLog } := by
  unfold hostRead at h
  split at h
  · cases h
  · split at h
    · cases h
    · cases h; simp_all

theorem hostRead_ok {t : Target} {s : State} (hr : mayRead s t = true) (he : t.exists s.params = true) :
    hostRead t s = .next { s with hostLog := (t, hostValue s t) :: s.hostLog } := by
  simp [hostRead, hr, he]

/-- A byte put into one memory is read back there and nowhere else. -/
theorem setMem_byteAt (s : State) (sp : Space) (a : Nat) (b : Byte) (sp' : Space) (a' : Nat) :
    (s.setMem sp (Memory.put (s.mem sp) a b)).byteAt sp' a' = if (sp', a') = (sp, a) then b else s.byteAt sp' a' := by
  cases sp <;> cases sp' <;>
    simp [State.byteAt, State.store, Store.byteAt, State.setMem, State.mem, Memory.find_put] <;>
    (by_cases h : a' = a <;> simp [h])

theorem setMem_mem (s : State) (sp sp' : Space) (m : Memory) :
    (s.setMem sp m).mem sp' = if sp' = sp then m else s.mem sp' := by
  cases sp <;> cases sp' <;> rfl

theorem setMem_params (s : State) (sp : Space) (m : Memory) : (s.setMem sp m).params = s.params := by cases sp <;> rfl

/-- A write inside a space keeps every memory in form. -/
theorem memoriesOk_setMem {s : State} (hs : MemoriesOk s) {sp : Space} {a : Nat} (b : Byte)
    (ha : inside (Params.size s.params sp) a = true) : MemoriesOk (s.setMem sp (Memory.put (s.mem sp) a b)) := by
  intro sp'
  rw [setMem_mem, setMem_params]
  split
  · subst sp'; exact ⟨Memory.wf_put _ _ (hs sp).1, Memory.within_put _ (hs sp).2 ha⟩
  · exact hs sp'

theorem latch_byteAt (s : State) (w : Byte) (sp : Space) : (s.latch w).byteAt sp = s.byteAt sp := by
  funext a; cases sp <;> rfl

/-- One more step of a run. -/
theorem run_succ {n : Nat} {s t : State} (h : step s = .next t) : core.run (n + 1) s = core.run n t := by
  have h' : core.step s = .next t := h
  rw [Host.Core.run.eq_2 core s n, h']

end Sys2Proof.Machine
end

