-- ==== Sys2Proof/Laws/Outcomes.lean ====
section
/-! SUPPORT. What the round commands answer, in the form the statements cite; the closed forms depend only on what they
read, and each direction of a round undoes the other. -/

namespace Sys2Proof.Machine

open Safety

/-! ## Checks from hypotheses -/

theorem checked_window {i : Instr} {s : State} (hi : i ∈ [Instr.rnd1E, .rnd1D, .rnd2E, .rnd2D])
    (h : Fits s.params.dataMax s.len) : Checked i s := by
  rw [fits_iff] at h
  simp only [List.mem_cons, List.not_mem_nil, or_false] at hi
  rcases hi with rfl | rfl | rfl | rfl <;>
    exact ⟨by simp [usesPw1len], by simp [usesPw2len], fun _ => h, by simp [usesKey], by simp [usesIvByte]⟩

theorem checked_rnd3 {i : Instr} {s : State} (hi : i ∈ [Instr.rnd3E, .rnd3D]) (h : Fits s.params.dataMax s.len)
    (h' : Fits s.params.pwMax s.pw2len) : Checked i s := by
  rw [fits_iff] at h h'
  simp only [List.mem_cons, List.not_mem_nil, or_false] at hi
  rcases hi with rfl | rfl <;>
    exact ⟨by simp [usesPw1len], fun _ => h', fun _ => h, by simp [usesKey], by simp [usesIvByte]⟩

theorem checked_enc {s : State} (h : Fits s.params.dataMax s.len) (h' : Fits s.params.pwMax s.pw2len)
    (hk : s.status.keyv = true) : Checked .enc s := by
  rw [fits_iff] at h h'
  exact ⟨by simp [usesPw1len], fun _ => h', fun _ => h, fun _ => hk, by simp [usesIvByte]⟩

theorem checked_dec {s : State} (h : Fits s.params.dataMax s.len) (h' : Fits s.params.pwMax s.pw2len)
    (hk : s.status.keyv = true) (hl : 1 ≤ s.len) : Checked .dec s := by
  rw [fits_iff] at h h'
  exact ⟨by simp [usesPw1len], fun _ => h', fun _ => h, fun _ => hk, fun _ => hl⟩

theorem checked_kgen {s : State} (h : Fits s.params.pwMax s.pw1len) : Checked .kgen s := by
  rw [fits_iff] at h
  exact ⟨fun _ => h, by simp [usesPw2len], by simp [usesLen], by simp [usesKey], by simp [usesIvByte]⟩

theorem checked_init {s : State} (h : Fits s.params.pwMax s.pw1len) (h' : Fits s.params.pwMax s.pw2len) :
    Checked .init s := by
  rw [fits_iff] at h h'
  exact ⟨fun _ => h, fun _ => h', by simp [usesLen], by simp [usesKey], by simp [usesIvByte]⟩

theorem checked_dgstP {s : State} (h : Fits s.params.pwMax s.pw2len) : Checked .dgstP s := by
  rw [fits_iff] at h
  exact ⟨by simp [usesPw1len], fun _ => h, by simp [usesLen], by simp [usesKey], by simp [usesIvByte]⟩

/-- A command that completed had passed its checks. -/
theorem checked_of_ok {i : Instr} {s t : State} (h : exec i s = .next t) (he : t.status.err = .none) : Checked i s := by
  by_contra hc
  rw [← precheck_none_iff] at hc
  rw [exec_of_check hc] at h
  cases h
  exact hc he

/-! ## Round commands -/

/-- What a round command leaves, its window having been rewritten by F and its fault code being e. -/
structure RoundResult (i : Instr) (s t : State) (e : Err) (F : Nat → Byte → Byte) : Prop where
  rest : t = { s with data := t.data, scratch := t.scratch, status := faulted e s.status.keyv }
  bytes : ∀ a, a < windowLen i s → t.byteAt .data (windowOff i + a) = F a (s.byteAt .data (windowOff i + a))
  outside : ∀ a, ¬ (windowOff i ≤ a ∧ a < windowOff i + windowLen i s) → t.byteAt .data a = s.byteAt .data a
  others : ∀ sp, sp ≠ .data → t.byteAt sp = s.byteAt sp
  frame : ScratchFrame i s.scratch t.scratch

theorem round_ok {i : Instr} {s : State} (hc : Checked i s) (hr : IsRound i)
    (ho : runsRound2 i = true → ¬ overruns (s.byteAt .gamma) (windowLen i s)) :
    ∃ t, exec i s = .next t ∧ RoundResult i s t .none (stageOut s i) := by
  obtain ⟨t, h1, h2, h3⟩ := round_body_done hr hc ho
  refine ⟨t.complete, by rw [exec_of_body ((precheck_none_iff _ _).mpr hc), h1]; rfl, ?_, h2.bytes,
    fun _ => h2.outside, fun _ => h2.byteAt_other, h3⟩
  rw [h2.rest]; rfl

theorem round_overrun {i : Instr} {s : State} (hc : Checked i s) (hr : runsRound2 i = true)
    (ho : overruns (s.byteAt .gamma) (windowLen i s)) :
    ∃ t, exec i s = .next t ∧ RoundResult i s t .grange (overrunOut s i) := by
  obtain ⟨t, h1, h2, h3⟩ := round_body_overrun hr hc ho
  refine ⟨t.enterFault .grange, by rw [exec_of_body ((precheck_none_iff _ _).mpr hc), h1]; rfl, ?_, h2.bytes,
    fun _ => h2.outside, fun _ => h2.byteAt_other, h3⟩
  rw [h2.rest]; rfl

/-- The inversion for round commands. -/
theorem round_inv {i : Instr} {s t : State} (hr : IsRound i) (h : exec i s = .next t) :
    (t = s.enterFault (precheck i s) ∧ precheck i s ≠ .none) ∨
    (Checked i s ∧ ¬ (runsRound2 i = true ∧ overruns (s.byteAt .gamma) (windowLen i s)) ∧
      RoundResult i s t .none (stageOut s i)) ∨
    (Checked i s ∧ (runsRound2 i = true ∧ overruns (s.byteAt .gamma) (windowLen i s)) ∧
      RoundResult i s t .grange (overrunOut s i)) := by
  by_cases hp : precheck i s = .none
  · have hc := (precheck_none_iff _ _).mp hp
    by_cases ho : runsRound2 i = true ∧ overruns (s.byteAt .gamma) (windowLen i s)
    · obtain ⟨t', h1, h2⟩ := round_overrun hc ho.1 ho.2
      rw [h1] at h; cases h
      exact .inr (.inr ⟨hc, ho, h2⟩)
    · obtain ⟨t', h1, h2⟩ := round_ok hc hr (fun a b => ho ⟨a, b⟩)
      rw [h1] at h; cases h
      exact .inr (.inl ⟨hc, ho, h2⟩)
  · rw [exec_of_check hp] at h; cases h
    exact .inl ⟨rfl, hp⟩

/-! ## Each direction undoes the other -/

theorem round1_undo (g : Nat → Byte) (i : Nat) (b : Byte) :
    round1Out g .decrypt i (round1Out g .encrypt i b) = b ∧ round1Out g .encrypt i (round1Out g .decrypt i b) = b := by
  unfold round1Out
  simp only []
  split
  · simp
  · split <;> constructor <;> grind

theorem round2_undo (g : Nat → Byte) (iv pwh : Byte) (n i : Nat) (b : Byte) :
    round2Out g iv pwh .decrypt n i (round2Out g iv pwh .encrypt n i b) = b ∧
    round2Out g iv pwh .encrypt n i (round2Out g iv pwh .decrypt n i b) = b := by
  unfold round2Out
  simp only [rol8_ror8, xor_xor_cancel, mix_mix, ror8_rol8, and_self]

theorem round3_undo (g : Nat → Byte) (n2 : Nat) (gh : Byte) (n i : Nat) (b : Byte) :
    round3Out g n2 gh .decrypt n i (round3Out g n2 gh .encrypt n i b) = b ∧
    round3Out g n2 gh .encrypt n i (round3Out g n2 gh .decrypt n i b) = b := by
  unfold round3Out
  exact ⟨rnd3_undo _ _ _, rnd3_redo _ _ _⟩

/-! ## What the closed forms read -/

theorem padded_congr {p q : Nat → Byte} {n : Nat} (h : ∀ a, a < n → p a = q a) : padded p n = padded q n := by
  funext m
  unfold padded
  split
  · exact h m ‹_›
  · rfl

theorem keyAt_congr {p q : Nat → Byte} {n : Nat} (h : ∀ a, a < n → p a = q a) : keyAt p n = keyAt q n := by
  funext i; unfold keyAt; rw [padded_congr h]

theorem rstAt_congr {p q : Nat → Byte} {n : Nat} {gh : Byte} {N : Nat} (h : ∀ a, a < n → p a = q a) :
    rstAt p n gh N = rstAt q n gh N := by
  funext i
  induction i with
  | zero => rfl
  | succ i ih => simp only [rstAt, ih, keyAt_congr h]

theorem round3_congr {p q : Nat → Byte} {n : Nat} {gh : Byte} (h : ∀ a, a < n → p a = q a) :
    round3Out p n gh = round3Out q n gh := by
  funext d N i b; unfold round3Out; rw [keyAt_congr h, rstAt_congr h]

theorem xorOf_congr {g h : Nat → Byte} : ∀ n, (∀ a, a < n → g a = h a) → xorOf g n = xorOf h n
  | 0, _ => rfl
  | n + 1, hh => by simp only [xorOf, xorOf_congr n (fun a ha => hh a (by omega)), hh n (by omega)]

theorem sumOf_congr {g h : Nat → Byte} : ∀ n, (∀ a, a < n → g a = h a) → sumOf g n = sumOf h n
  | 0, _ => rfl
  | n + 1, hh => by simp only [sumOf, sumOf_congr n (fun a ha => hh a (by omega)), hh n (by omega)]

theorem round1_congr {g h : Nat → Byte} (hh : ∀ a, a < 255 → g a = h a) : round1Out g = round1Out h := by
  funext d i b; unfold round1Out; rw [xorOf_congr _ hh, sumOf_congr _ hh]

theorem overruns_congr {g h : Nat → Byte} (hh : ∀ a, a < 255 → g a = h a) {n : Nat} : overruns g n ↔ overruns h n := by
  unfold overruns
  constructor <;> rintro ⟨a, b⟩ <;> refine ⟨fun z h1 h2 => ?_, b⟩
  · rw [← hh z (by omega)]; exact a z h1 h2
  · rw [hh z (by omega)]; exact a z h1 h2

theorem firstZero_congr {g h : Nat → Byte} (hh : ∀ a, a < 255 → g a = h a) : firstZero g = firstZero h := by
  unfold firstZero
  have key : ∀ l : List Nat, (∀ z ∈ l, z < 255) → l.find? (fun z => g z == 0x00) = l.find? (fun z => h z == 0x00) := by
    intro l
    induction l with
    | nil => simp
    | cons z l ih =>
      intro hl
      simp only [List.find?_cons, hh z (hl z (by simp)), ih (fun y hy => hl y (by simp [hy]))]
  exact key _ (by intro z hz; simp [List.mem_range'] at hz; omega)

/-- The key bytes of a window that does not overrun. -/
theorem rawKey_congr {g h : Nat → Byte} (hh : ∀ a, a < 255 → g a = h a) {n : Nat} (ho : ¬ overruns g n) {i : Nat}
    (hi : i < n) : rawKey g i = rawKey h i := by
  unfold rawKey
  rw [firstZero_congr hh]
  cases hz : firstZero h with
  | none =>
    rw [← firstZero_congr hh] at hz
    have := not_overruns_iff.mp ho hz
    exact hh i (by omega)
  | some z =>
    obtain ⟨h1, h2, -⟩ := firstZero_some hz
    have := Nat.mod_lt i (show 0 < z by omega)
    exact hh _ (by omega)

theorem round2_congr {g h : Nat → Byte} (hh : ∀ a, a < 255 → g a = h a) {n : Nat} (ho : ¬ overruns g n) {i : Nat}
    (hi : i < n) {iv pwh : Byte} {d : Dir} {b : Byte} : round2Out g iv pwh d n i b = round2Out h iv pwh d n i b := by
  unfold round2Out; rw [rawKey_congr hh ho hi]

/-- The first 255 positions of a window that overruns. -/
theorem round2_congr_overrun {g h : Nat → Byte} (hh : ∀ a, a < 255 → g a = h a) {n : Nat} (ho : overruns g n) {i : Nat}
    (hi : i < 255) {iv pwh : Byte} {d : Dir} {b : Byte} : round2Out g iv pwh d n i b = round2Out h iv pwh d n i b := by
  have h1 : firstZero g = none := firstZero_none.mpr ho.1
  unfold round2Out rawKey
  rw [← firstZero_congr hh, h1, hh i hi]

end Sys2Proof.Machine
end

