-- ==== Sys2Proof/Laws/PerInstr.lean ====
section
/-! SUPPORT. Statements made once per command. -/

/-- The fields of a command are legal, put together they are its match value, and taking the match value apart gives
them back (spec/30_encoding.md R91, R93). -/
def Sys2Proof.Laws.Fields.Statement (i : Sys2Proof.Instr) : Prop :=
  i.fields.wf = true ∧ i.fields.word = Sys2Proof.encode i ∧ Sys2Proof.fieldsOf (Sys2Proof.encode i) = i.fields

namespace Sys2Proof.Laws.Fields

open Sys2Proof

theorem kgen : Statement Instr.kgen := by unfold Statement; decide
theorem dgstG : Statement Instr.dgstG := by unfold Statement; decide
theorem dgstP : Statement Instr.dgstP := by unfold Statement; decide
theorem rnd1E : Statement Instr.rnd1E := by unfold Statement; decide
theorem rnd1D : Statement Instr.rnd1D := by unfold Statement; decide
theorem rnd2E : Statement Instr.rnd2E := by unfold Statement; decide
theorem rnd2D : Statement Instr.rnd2D := by unfold Statement; decide
theorem rnd3E : Statement Instr.rnd3E := by unfold Statement; decide
theorem rnd3D : Statement Instr.rnd3D := by unfold Statement; decide
theorem init : Statement Instr.init := by unfold Statement; decide
theorem enc : Statement Instr.enc := by unfold Statement; decide
theorem dec : Statement Instr.dec := by unfold Statement; decide

end Sys2Proof.Laws.Fields
end

