-- ==== Sys2Proof/Tests/Slice0.lean ====
section
/-! SUPPORT. Tests. Expected values are the encodings of spec/30_encoding.md R93 and the vectors of
spec/95_test_vectors.md (V and P numbers below). -/

namespace Sys2Proof.Tests

open Sys2Proof.Machine Sys2Proof.Safety

set_option Elab.async false

/-! ## Small states -/

/-- The `len` bytes of a hex string, index 0 first. -/
def hexBytes : Nat → Nat → List Byte
  | 0, _ => []
  | len + 1, w => BitVec.ofNat 8 (w / 256 ^ len) :: hexBytes len w

/-- Bytes as the cells of a memory, from an index up. -/
def cells : Nat → List Byte → Memory
  | _, [] => []
  | a, b :: rest => (a, b) :: cells (a + 1) rest

/-- The first 125 bytes of `Gamma("password")` (V1). -/
def goldenGamma : List Byte := hexBytes 125
  0x71cbefc12baa7a7fe7dc9d9f7e71173f7db435ee196a5e7397ff16ce4e305b2606974f5637f780350036ecb4aa0c9b1b9f9d268a6d9a26ab042895b48958621da069826c60fdd36ebb1d84506309c0c78d69ab86c7176036a57d742af74530a4fd6d4908e22eff8d2b6edacaa3a380a16211bb2240d103cb3a4f2cb396

/-- GAMMA[0..254] after V1: the golden bytes, then 130 zeros. -/
def gammaPassword : List Byte := goldenGamma ++ List.replicate 130 0x00

/-- Idle after reset with the passwords "password" and "abcdef" loaded. -/
def loaded : State :=
  { State.reset with pw1 := cells 0 (hexBytes 8 0x70617373776f7264), pw1len := 8
                     pw2 := cells 0 (hexBytes 6 0x616263646566), pw2len := 6 }

/-- The context of V10 with a working buffer. -/
def context (buffer : List Byte) : State :=
  { loaded with gamma := cells 0 gammaPassword, ghash := 0xAC, pwhash := 0x24, iv := 0x45
                status := { busy := false, done := false, keyv := true, err := .none }
                data := cells 0 buffer, len := buffer.length }

/-- "test \r\n". -/
def plain : List Byte := hexBytes 7 0x74657374200d0a

/-- The next state, or the same one where there is none. -/
def after (o : Host.Outcome State Fault Refusal) (s : State) : State :=
  match o with
  | .next t => t
  | .fault _ => s
  | .refused _ => s

/-- There is a next state, without a fault code. -/
def completes (o : Host.Outcome State Fault Refusal) : Bool :=
  match o with
  | .next t => t.status.err == .none
  | .fault _ => false
  | .refused _ => false

/-- There is a next state, with the status byte `st` and `n` given bytes in DATA from index 0. -/
def ends (o : Host.Outcome State Fault Refusal) (st : Byte) (buffer : List Byte) : Bool :=
  match o with
  | .next t => t.status.byte == st && (List.range buffer.length).map (t.byteAt .data) == buffer
  | .fault _ => false
  | .refused _ => false

/-! ## Syntax and its checks -/

theorem test_wellformed_refuses_unit_0 : ({ unit := 0, fn := 0, d := 0 } : CmdFields).unitOk = false := by decide
theorem test_wellformed_refuses_unit_7 : ({ unit := 7, fn := 0, d := 0 } : CmdFields).wf = false := by decide
theorem test_wellformed_refuses_fn_2 : ({ unit := 6, fn := 2, d := 0 } : CmdFields).fnOk = false := by decide
theorem test_wellformed_refuses_fn_1_of_kgu : ({ unit := 1, fn := 1, d := 0 } : CmdFields).wf = false := by decide
theorem test_wellformed_refuses_direction_of_init : ({ unit := 6, fn := 0, d := 1 } : CmdFields).dOk = false := by
  decide
theorem test_wellformed_refuses_capacity_0 : ({ pwMax := .bounded 0, dataMax := .unbounded } : Params).wf = false := by
  decide
theorem test_wellformed_refuses_host_lines :
    HostLine.wf Config.defaultParams (.rd (.csr 8)) = false ∧
    HostLine.wf Config.defaultParams (.wr (.mem .gamma 255) 0) = false ∧
    HostLine.wf Config.defaultParams (.wr .IV 256) = false ∧
    HostLine.wf Config.defaultParams (.wr .LEN 256) = true := by decide

/-! ## Decoding: words written out from UNIT 7:4, FN 3:1, D 0 (R91, R93) -/

theorem test_decode_kgen : decode 0b00010000#8 = .ok .kgen := by decide
theorem test_decode_dgstG : decode 0b00100000#8 = .ok .dgstG := by decide
theorem test_decode_dgstP : decode 0b00100010#8 = .ok .dgstP := by decide
theorem test_decode_rnd1E : decode 0b00110000#8 = .ok .rnd1E := by decide
theorem test_decode_rnd1D : decode 0b00110001#8 = .ok .rnd1D := by decide
theorem test_decode_rnd2E : decode 0b01000000#8 = .ok .rnd2E := by decide
theorem test_decode_rnd2D : decode 0b01000001#8 = .ok .rnd2D := by decide
theorem test_decode_rnd3E : decode 0b01010000#8 = .ok .rnd3E := by decide
theorem test_decode_rnd3D : decode 0b01010001#8 = .ok .rnd3D := by decide
theorem test_decode_init : decode 0b01100000#8 = .ok .init := by decide
theorem test_decode_enc : decode 0b01100010#8 = .ok .enc := by decide
theorem test_decode_dec : decode 0b01100011#8 = .ok .dec := by decide

theorem test_decode_rejects_by_name :
    decode 0x00 = .error .reservedUnit ∧ decode 0x70 = .error .reservedUnit ∧ decode 0xFF = .error .reservedUnit ∧
    decode 0x12 = .error .reservedFn ∧ decode 0x64 = .error .reservedFn ∧
    decode 0x61 = .error .directionless ∧ decode 0x23 = .error .directionless := by decide

/-- The twelve rows of the table as the host numbers them. -/
theorem test_table_words :
    ([0x10, 0x20, 0x22, 0x30, 0x31, 0x40, 0x41, 0x50, 0x51, 0x60, 0x62, 0x63].map (decodeTableWord 8)) =
      [Instr.kgen, .dgstG, .dgstP, .rnd1E, .rnd1D, .rnd2E, .rnd2D, .rnd3E, .rnd3D, .init, .enc, .dec].map some := by
  decide

/-! ## Primitives (V28) -/

theorem test_rotates :
    ror8 0x8E 5 = 0x74 ∧ rol8 0x1D 7 = 0x8E ∧ ror8 0x45 7 = 0x8A ∧ ror8 0x01 1 = 0x80 ∧ rol8 0x80 1 = 0x01 ∧
    ror8 0xAC 7 = 0x59 ∧ rol8 0x96 12 = 0x69 ∧ ror8 0x96 8 = 0x96 := by decide

theorem test_memory_keeps_its_form :
    Memory.put (Memory.put (Memory.put [] 7 0x01) 3 0x02) 7 0x05 = [(3, 0x02), (7, 0x05)] ∧
    Memory.wf [(3, 0x02), (7, 0x05)] = true ∧ Memory.wf [(7, 0x05), (3, 0x02)] = false ∧
    Memory.wf [(3, 0x02), (3, 0x05)] = false := by decide

/-! ## The commands, one step each -/

/-- `Gamma("password")` in the closed form of Safety.lean is the golden vector (V1). -/
theorem test_generator_golden :
    (List.range 255).map (gammaOf (padded (loaded.byteAt .pw1) loaded.pw1len)) = gammaPassword := by decide +kernel

/-- V1, on the machine. -/
theorem test_kgen_golden : ∃ t, exec .kgen loaded = .next t ∧ t.status = completed false ∧
    ∀ m, m < 255 → t.byteAt .gamma m = gammaPassword.getD m 0x00 := by
  obtain ⟨_, h1, u, h2, rfl⟩ := exec_kgen_ok ((precheck_none_iff _ loaded).mp (by decide))
  refine ⟨_, h1, by simp [completed], fun m hm => ?_⟩
  rw [← test_generator_golden, List.getD_eq_getElem _ _ (by simpa using hm)]
  simpa using h2.bytes m hm

/-- V2. -/
theorem test_dgstG_golden : (after (exec .dgstG { context [] with ghash := 0x00 }) loaded).ghash = 0xAC := by
  decide +kernel

/-- V3. -/
theorem test_dgstP_golden : (after (exec .dgstP { context [] with pwhash := 0x00 }) loaded).pwhash = 0x24 := by
  decide +kernel

/-- V16, empty password2. -/
theorem test_dgstP_empty : (after (exec .dgstP { loaded with pw2len := 0 }) loaded).pwhash = 0xFE := by decide +kernel

/-- V4 and V18. -/
theorem test_rnd1E_golden : ends (exec .rnd1E (context plain)) 0x06 (hexBytes 7 0x647f59643af31a) = true := by
  decide +kernel

/-- V5 and V18. -/
theorem test_rnd1D_golden : ends (exec .rnd1D (context (hexBytes 7 0x647f59643af31a))) 0x06 plain = true := by
  decide +kernel

/-- V6. -/
theorem test_rnd2E_golden :
    ends (exec .rnd2E (context (hexBytes 7 0x647f59643af31a))) 0x06 (hexBytes 7 0x1d7014a15cc018) = true := by
  decide +kernel

/-- V19: the zero guard. -/
theorem test_rnd2E_zero_guard :
    ends (exec .rnd2E { context (hexBytes 5 0x1122334455) with
      gamma := cells 0 (hexBytes 4 0x05090007), iv := 0x80, pwhash := 0x10 }) 0x06 (hexBytes 5 0xf4d011d832) = true := by
  decide +kernel

/-- V7. -/
theorem test_rnd2D_golden :
    ends (exec .rnd2D (context (hexBytes 7 0x1d7014a15cc018))) 0x06 (hexBytes 7 0x647f59643af31a) = true := by
  decide +kernel

/-- V8. -/
theorem test_rnd3E_golden :
    ends (exec .rnd3E (context (hexBytes 7 0x1d7014a15cc018))) 0x06 (hexBytes 7 0x166c449c279df2) = true := by
  decide +kernel

/-- V23: an empty password2. -/
theorem test_rnd3E_empty :
    ends (exec .rnd3E { context (hexBytes 3 0x010203) with pw2len := 0 }) 0x06 (hexBytes 3 0x5393d7) = true := by
  decide +kernel

/-- V24: the inverse of V8. -/
theorem test_rnd3D_golden :
    ends (exec .rnd3D (context (hexBytes 7 0x166c449c279df2))) 0x06 (hexBytes 7 0x1d7014a15cc018) = true := by
  decide +kernel

/-- P1 up to `wait`: the digests are those of V2 and V3. -/
theorem test_init_golden : ∃ t, exec .init loaded = .next t ∧ t.status = completed true ∧ t.ghash = 0xAC ∧
    t.pwhash = 0x24 := by
  obtain ⟨t, h1, h2⟩ := exec_init_ok ((precheck_none_iff _ loaded).mp (by decide))
  refine ⟨t, h1, congrArg State.status h2.rest, ?_, ?_⟩
  · rw [h2.ghash, gammaDigest_congr (g' := fun m => gammaPassword.getD m 0x00) fun m hm => ?_]
    · decide +kernel
    · rw [← test_generator_golden, List.getD_eq_getElem _ _ (by simpa using hm)]
      simpa using h2.bytes m hm
  · rw [h2.pwhash]; decide +kernel

/-- V10. -/
theorem test_enc_golden : ends (exec .enc (context plain)) 0x06 (hexBytes 7 0x166c449c279df2) = true := by decide +kernel

/-- V11; the IV register is not used. -/
theorem test_dec_golden : ends (exec .dec { context (hexBytes 8 0x45166c449c279df2) with iv := 0x00 }) 0x06
    (hexBytes 8 0x4574657374200d0a) = true := by decide +kernel

/-! ## Faults (V26) -/

theorem test_dec_of_empty_buffer : ends (exec .dec (context [])) 0x46 [] = true := by decide +kernel
theorem test_dec_of_one_byte : ends (exec .dec (context [0x45])) 0x06 [0x45] = true := by decide +kernel
theorem test_enc_of_empty_buffer : ends (exec .enc (context [])) 0x06 [] = true := by decide +kernel
theorem test_nokey_outranks_empty : ends (exec .dec ((context []).setKeyv false)) 0x32 [] = true := by decide +kernel
theorem test_len_outranks_nokey :
    ends (exec .dec ({ context [] with len := 600 }.setKeyv false)) 0x22 [] = true := by decide +kernel
theorem test_enc_after_reset : ends (step (State.reset.withFetchWord 8 0x62)) 0x32 [] = true := by decide +kernel
theorem test_illegal_word : ends (step ((context []).withFetchWord 8 0x61)) 0x16 [] = true := by decide +kernel
theorem test_pending_fault_ignores_cmd :
    step { context [] with status := faulted .empty true, script := [.cmd .enc] } =
      .next { context [] with status := faulted .empty true, script := [] } := by rfl
theorem test_ack : (after (step { context [] with status := faulted .empty true, script := [.ack] }) loaded).status.byte
    = 0x04 := by decide +kernel
theorem test_same_value_clears_keyv :
    (after (step { context [] with script := [.wr (.mem .pw2 0) 0x61] }) loaded).status.byte = 0x00 := by decide +kernel

/-! ## Witnesses: states that meet the hypotheses of the statements

`idle ls` is idle after reset with the script ls; `running w` has the word w latched and the engine to move. -/

def idle (ls : List HostLine) : State := { loaded with script := ls }

def waiting (ls : List HostLine) : State := { idle ls with status := faulted .len false }

def busyWith (ls : List HostLine) : State := { (loaded.latch 0x20) with script := ls, turns := [.host] }

def running (w : Byte) : State := loaded.latch w

/-- Both capacities hold 512 bytes; the lengths of this state are exactly that. -/
def fullLengths : State := { loaded with pw1len := 512, pw2len := 512, len := 512 }

/-- No byte of GAMMA is zero. -/
def gammaOfOnes : Memory := cells 0 (List.replicate 255 0x01)

/-- A context whose GAMMA has no zero, and a window of n bytes. -/
def longWindow (n : Nat) : State := { context [] with gamma := gammaOfOnes, len := n }

/-- Every command. -/
def commands : List Instr :=
  [.kgen, .dgstG, .dgstP, .rnd1E, .rnd1D, .rnd2E, .rnd2D, .rnd3E, .rnd3D, .init, .enc, .dec]

theorem next_of_completes {o : Host.Outcome State Fault Refusal} (h : completes o = true) :
    ∃ t, o = .next t ∧ t.status.err = .none := by
  cases o with
  | next t => exact ⟨t, rfl, by simpa [completes] using h⟩
  | fault f => cases h
  | refused r => cases h

/-- The commands complete one after another. -/
def allComplete : List Instr → State → Bool
  | [], _ => true
  | i :: rest, s => completes (exec i (s.latch (encode i))) && allComplete rest (after (exec i (s.latch (encode i))) s)

theorem runsTo_of_allComplete {is : List Instr} {s : State} (h : allComplete is s = true) : ∃ t, RunsTo is s t := by
  induction is generalizing s with
  | nil => exact ⟨s, rfl⟩
  | cons i rest ih =>
    rw [allComplete, Bool.and_eq_true] at h
    obtain ⟨u, hu, he⟩ := next_of_completes h.1
    have h2 := h.2
    rw [hu] at h2
    obtain ⟨t, ht⟩ := ih h2
    exact ⟨t, u, hu, he, ht⟩

/-! ### Host moves -/

/-- The commands that set or clear KEYV, the host lines that clear it, and two steps that are neither. -/
theorem witness_KeyvChangesOnlyAsTheContextDoes :
    (∀ w ∈ [(0x60 : Byte), 0x10, 0x20, 0x22, 0x30], (running w).nextAgent = .engine ∧
      (running w).status.busy = true ∧ (running w).cmdr = w ∧ ∃ t, step (running w) = .next t ∧ t.status.err = .none) ∧
    ∀ l ∈ [HostLine.reset, .wr .GHASH 0, .wr .PWHASH 0, .wr .PW2LEN 0, .wr (.mem .gamma 254) 7, .wr (.mem .pw2 511) 7,
        .wr (.mem .data 0) 7],
      (idle [l]).nextAgent = .host ∧ (idle [l]).script.head? = some l ∧ ∃ t, step (idle [l]) = .next t := by
  have h1 : ∀ w ∈ [(0x60 : Byte), 0x10, 0x20, 0x22, 0x30], completes (step (running w)) = true := by decide +kernel
  have h2 : ∀ l ∈ [HostLine.reset, .wr .GHASH 0, .wr .PWHASH 0, .wr .PW2LEN 0, .wr (.mem .gamma 254) 7,
      .wr (.mem .pw2 511) 7, .wr (.mem .data 0) 7], completes (step (idle [l])) = true := by decide +kernel
  exact ⟨fun w hw => ⟨rfl, rfl, rfl, next_of_completes (h1 w hw)⟩,
    fun l hl => ⟨rfl, rfl, (next_of_completes (h2 l hl)).imp fun _ h => h.1⟩⟩

theorem witness_HostReadsReturnTheValueAndChangeNothing :
    (∀ t ∈ [Target.CMD, .STATUS, .IV, .GHASH, .PWHASH, .LEN, .PW1LEN, .PW2LEN, .mem .pw1 511, .mem .pw2 0,
        .mem .gamma 254, .mem .data 511],
      (idle [.rd t]).nextAgent = .host ∧ (idle [.rd t]).script = [.rd t] ∧ t.exists (idle [.rd t]).params = true ∧
        (idle [.rd t]).status.busy = false) ∧
    ((busyWith [.rd .STATUS]).nextAgent = .host ∧ Target.exists (busyWith [.rd .STATUS]).params .STATUS = true) := by
  decide

theorem witness_HostWritesStoreTheirValueWithListedSideEffects :
    (∀ t ∈ [Target.CMD, .STATUS, .IV, .GHASH, .PWHASH, .LEN, .PW1LEN, .PW2LEN, .mem .pw1 511, .mem .pw2 0,
        .mem .gamma 254, .mem .data 511],
      (idle [.wr t 255]).nextAgent = .host ∧ (idle [.wr t 255]).status.busy = false ∧
        (idle [.wr t 255]).status.err = .none ∧ t.exists (idle [.wr t 255]).params = true ∧ t.holds 255 = true) ∧
    (waiting [.wr .CMD 0]).nextAgent = .host ∧ (waiting [.wr .CMD 0]).status.err ≠ .none ∧
    Target.holds .LEN 600 = true := by decide

theorem witness_HostTouchesNothingButStatusWhileBusy :
    ∀ l ∈ [HostLine.wr .LEN 0, .rd .LEN, .cmd .enc, .ack, .rd .STATUS],
      (busyWith [l]).nextAgent = .host ∧ (busyWith [l]).status.busy = true ∧ (busyWith [l]).script = [l] := by decide

theorem witness_HostHasNoMoveOutsideTheSpaces :
    ∀ t ∈ [Target.csr 8, .mem .gamma 255, .mem .pw1 512, .mem .pw2 512, .mem .data 512],
      (idle [.rd t]).nextAgent = .host ∧ (idle [.wr t 0]).status.busy = false ∧
        (idle []).params.pwMax = .bounded 512 ∧ (idle []).params.dataMax = .bounded 512 := by decide

theorem witness_CmdWritesAreAcceptedIgnoredOrRefused :
    (idle [.cmd .enc]).status.busy = false ∧ (idle [.cmd .enc]).status.err = .none ∧
    (idle [.wr .CMD (0xFF#8).toNat]).nextAgent = .host ∧
    (waiting [.cmd .enc]).status.err ≠ .none ∧ (waiting [.cmd .enc]).nextAgent = .host ∧
    (busyWith [.cmd .enc]).status.busy = true ∧ (busyWith [.cmd .enc]).nextAgent = .host := by decide

theorem witness_WaitPollsUntilIdle :
    (idle [.wait]).nextAgent = .host ∧ (idle [.wait]).status.busy = false ∧
    (busyWith [.wait]).nextAgent = .host ∧ (busyWith [.wait]).status.busy = true := by decide

theorem witness_LoadDataLineFillsTheBuffer :
    (∀ b ∈ [[], plain, List.replicate 512 (0x00 : Byte)],
      (idle (ScriptLine.lddata b).expand).turns = [] ∧ (idle (ScriptLine.lddata b).expand).status.busy = false) ∧
    Fits (idle []).params.dataMax 0 ∧ Fits (idle []).params.dataMax 512 ∧
    (List.replicate 512 (0x00 : Byte)).length = 512 := by
  refine ⟨fun b _ => ⟨rfl, rfl⟩, ?_, ?_, ?_⟩
  · exact Nat.zero_le 512
  · exact Nat.le_refl 512
  · exact List.length_replicate

theorem witness_RunLineEndsInThreeSteps :
    (idle ((ScriptLine.run .enc).expand ++ [.ack])).turns = [] ∧
    (idle ((ScriptLine.run .enc).expand ++ [.ack])).status.busy = false ∧
    (idle ((ScriptLine.run .enc).expand ++ [.ack])).status.err = .none := by decide

theorem witness_AcknowledgeReturnsToService :
    (waiting [.ack]).nextAgent = .host ∧ (waiting [.ack]).status.busy = false ∧
    (waiting [.wr .STATUS 255]).nextAgent = .host ∧ (waiting [.wr .STATUS 255]).script = [.wr .STATUS 255] := by decide

theorem witness_ResetEventClearsTheControlState :
    (busyWith [.reset]).nextAgent = .host ∧ (busyWith [.reset]).script = [.reset] ∧
    (idle [.reset]).nextAgent = .host := by decide

/-! ### The engine's turn -/

theorem witness_StepRunsTheDecodedCommand : ∀ i ∈ commands,
    (running (encode i)).nextAgent = .engine ∧ (running (encode i)).status.busy = true ∧
      decode (running (encode i)).cmdr = .ok i := by decide

theorem witness_IdleEngineDoesNothing :
    ({ loaded with turns := [.engine] } : State).nextAgent = .engine ∧
    ({ loaded with turns := [.engine] } : State).status.busy = false := by decide

theorem witness_IllegalCommandFaultsAndChangesNothingElse : ∀ w ∈ [(0x00 : Byte), 0x11, 0x61, 0x70, 0xFF],
    (running w).nextAgent = .engine ∧ (running w).status.busy = true ∧ ∀ i ∈ commands, (running w).cmdr ≠ encode i := by
  decide

/-! ### Lengths, contexts, windows -/

theorem witness_length_hypotheses :
    Fits fullLengths.params.pwMax fullLengths.pw1len ∧ Fits fullLengths.params.pwMax fullLengths.pw2len ∧
    Fits fullLengths.params.dataMax fullLengths.len ∧ Fits loaded.params.dataMax loaded.len := by
  exact ⟨Nat.le_refl 512, Nat.le_refl 512, Nat.le_refl 512, Nat.zero_le 512⟩

/-- For `EmptyPassword1Generates` and `EmptyPassword2DigestIsFE`. -/
theorem witness_empty_passwords : State.reset.pw1len = 0 ∧ State.reset.pw2len = 0 := by decide

theorem witness_KgenRetainsTheTail : ∃ t, exec .kgen loaded = .next t ∧ t.status.err = .none :=
  next_of_completes (by decide +kernel)

/-- Two passwords of 512 and of 255 bytes that agree below 255: nothing has been written to either. -/
theorem witness_KgenTruncatesLongPasswords :
    let s := { fullLengths with pw1 := [] }
    let s' := { fullLengths with pw1 := cells 255 [0x33], pw1len := 255 }
    255 ≤ s.pw1len ∧ 255 ≤ s'.pw1len ∧ (∀ m, m < 255 → s.byteAt .pw1 m = s'.byteAt .pw1 m) ∧
    (∃ t, exec .kgen s = .next t ∧ t.status.err = .none) ∧ ∃ t, exec .kgen s' = .next t ∧ t.status.err = .none := by
  refine ⟨by decide, by decide, fun m hm => ?_, next_of_completes (by decide +kernel),
    next_of_completes (by decide +kernel)⟩
  have h : Memory.find (cells 255 [0x33]) m = none := by
    show (if m = 255 then some (0x33 : Byte) else none) = none
    rw [if_neg (by omega)]
  show _ = Store.byteAt _ m
  rw [Store.byteAt]
  show _ = match Memory.find (cells 255 [0x33]) m with
    | some b => b
    | none => Config.drawnCell .pw1 0 m
  rw [h]
  rfl

theorem witness_DgstPIgnoresBytesFrom255 :
    let s := { fullLengths with pw2 := [] }
    let s' := { fullLengths with pw2 := cells 255 [0x33], pw2len := 255 }
    255 ≤ s.pw2len ∧ 255 ≤ s'.pw2len ∧ (∀ m, m < 255 → s.byteAt .pw2 m = s'.byteAt .pw2 m) ∧
    (∃ t, exec .dgstP s = .next t ∧ t.status.err = .none) ∧ ∃ t, exec .dgstP s' = .next t ∧ t.status.err = .none := by
  refine ⟨by decide, by decide, fun m hm => ?_, next_of_completes (by decide +kernel),
    next_of_completes (by decide +kernel)⟩
  have h : Memory.find (cells 255 [0x33]) m = none := by
    show (if m = 255 then some (0x33 : Byte) else none) = none
    rw [if_neg (by omega)]
  show _ = Store.byteAt _ m
  rw [Store.byteAt]
  show _ = match Memory.find (cells 255 [0x33]) m with
    | some b => b
    | none => Config.drawnCell .pw2 0 m
  rw [h]
  rfl

theorem witness_Rnd1DirectionsUndoEachOther :
    (∃ t, RunsTo [.rnd1E, .rnd1D] (context plain) t) ∧ (∃ t, RunsTo [.rnd1D, .rnd1E] (context plain) t) ∧
    Fits (context plain).params.dataMax (context plain).len :=
  ⟨runsTo_of_allComplete (by decide +kernel), runsTo_of_allComplete (by decide +kernel), by
    show 7 ≤ 512; decide⟩

theorem witness_Rnd2DirectionsUndoEachOther :
    (∃ t, RunsTo [.rnd2E, .rnd2D] (context plain) t) ∧ ∃ t, RunsTo [.rnd2D, .rnd2E] (context plain) t :=
  ⟨runsTo_of_allComplete (by decide +kernel), runsTo_of_allComplete (by decide +kernel)⟩

theorem witness_Rnd3DirectionsUndoEachOther :
    (∃ t, RunsTo [.rnd3E, .rnd3D] (context plain) t) ∧ (∃ t, RunsTo [.rnd3D, .rnd3E] (context plain) t) ∧
    Fits (context plain).params.dataMax (context plain).len ∧ Fits (context plain).params.pwMax (context plain).pw2len :=
  ⟨runsTo_of_allComplete (by decide +kernel), runsTo_of_allComplete (by decide +kernel), by
    show 7 ≤ 512; decide, by show 6 ≤ 512; decide⟩

/-- The longest window that does not overrun although no byte of GAMMA is zero, and the shortest that does; with the
hypotheses of ENC, and of DEC whose window is one byte shorter. -/
theorem witness_overrun_hypotheses :
    ¬ overruns ((longWindow 255).byteAt .gamma) (longWindow 255).len ∧
    overruns ((longWindow 256).byteAt .gamma) (longWindow 256).len ∧
    ¬ overruns ((longWindow 256).byteAt .gamma) ((longWindow 256).len - 1) ∧
    overruns ((longWindow 257).byteAt .gamma) ((longWindow 257).len - 1) ∧
    1 ≤ (longWindow 256).len ∧ (longWindow 256).status.keyv = true ∧
    Fits (longWindow 257).params.dataMax (longWindow 257).len ∧
    Fits (longWindow 257).params.pwMax (longWindow 257).pw2len := by
  have hg : ∀ n z, 1 ≤ z → z ≤ 254 → (longWindow n).byteAt .gamma z ≠ 0x00 := by
    intro n z _ hz
    have h : ∀ z, z < 255 → Memory.find gammaOfOnes z = some 0x01 := by decide +kernel
    show Store.byteAt _ z ≠ _
    rw [Store.byteAt]
    show (match Memory.find gammaOfOnes z with
      | some b => b
      | none => Config.drawnCell .gamma 0 z) ≠ _
    rw [h z (by omega)]
    exact (by decide : (0x01 : Byte) ≠ 0x00)
  refine ⟨fun h => ?_, ⟨hg _, ?_⟩, fun h => ?_, ⟨hg _, ?_⟩, ?_, rfl, ?_, ?_⟩
  · exact absurd h.2 (by show ¬ 256 ≤ 255; decide)
  · show 256 ≤ 256; decide
  · exact absurd h.2 (by show ¬ 256 ≤ 255; decide)
  · show 256 ≤ 256; decide
  · show 1 ≤ 256; decide
  · show 257 ≤ 512; decide
  · show 6 ≤ 512; decide

/-- The overrun is raised on such a window. -/
theorem witness_overrun_raised : ∃ t, exec .rnd2E (longWindow 256) = .next t ∧ t.status.err = .grange := by
  obtain ⟨t, h, -⟩ := round_body_overrun (i := .rnd2E) (s := longWindow 256) rfl
    ((precheck_none_iff _ _).mp (by decide +kernel)) witness_overrun_hypotheses.2.1
  exact ⟨t.enterFault .grange, by rw [exec_of_body (by decide +kernel), h]; rfl, rfl⟩

/-! ### The controller -/

theorem witness_InitEqualsTheUnitCommands : ∃ t, exec .init loaded = .next t ∧ t.status.err = .none :=
  next_of_completes (by decide +kernel)

theorem witness_EncEqualsTheStageCommands : ∃ t, exec .enc (context plain) = .next t ∧ t.status.err = .none :=
  next_of_completes (by decide +kernel)

/-- `s` holds V11's framed buffer, `c` the ciphertext alone with the IV in its register. -/
theorem witness_DecEqualsTheStageCommands :
    let s := context (hexBytes 8 0x45166c449c279df2)
    let c := context (hexBytes 7 0x166c449c279df2)
    (∃ t, exec .dec s = .next t ∧ t.status.err = .none) ∧ c.params = s.params ∧ SameGamma s c ∧ SamePw2 s c ∧
    c.ghash = s.ghash ∧ c.pwhash = s.pwhash ∧ c.iv = s.byteAt .data 0 ∧ c.len + 1 = s.len ∧
    ∀ i, i < c.len → c.byteAt .data i = s.byteAt .data (1 + i) :=
  ⟨next_of_completes (by decide +kernel), rfl, fun _ _ => rfl, ⟨rfl, fun _ _ => rfl⟩, rfl, rfl, by decide +kernel,
    by decide +kernel, by decide +kernel⟩

/-- V10 and V11: `s` the plaintext, `f` the framed ciphertext. -/
theorem witness_DecOfFramedEncIsThePlaintext :
    let s := context plain
    let f := { context (hexBytes 8 0x45166c449c279df2) with iv := 0x00 }
    ∃ t w, Fits s.params.dataMax (s.len + 1) ∧ Fits s.params.pwMax s.pw2len ∧ s.status.keyv = true ∧
      exec .enc s = .next t ∧ f.params = s.params ∧ f.status.keyv = true ∧ SameGamma s f ∧ SamePw2 s f ∧
      f.ghash = s.ghash ∧ f.pwhash = s.pwhash ∧ f.len = s.len + 1 ∧ f.byteAt .data 0 = s.iv ∧
      (∀ i, i < s.len → f.byteAt .data (1 + i) = t.byteAt .data i) ∧ exec .dec f = .next w ∧
      t.status.err = .none := by
  have h : ∀ o : Host.Outcome State Fault Refusal,
      ends o 0x06 (hexBytes 7 0x166c449c279df2) = true → completes o = true →
      ∃ t, o = .next t ∧ t.status.err = .none ∧ (List.range 7).map (t.byteAt .data) = hexBytes 7 0x166c449c279df2 := by
    intro o h1 h2
    obtain ⟨t, rfl, he⟩ := next_of_completes h2
    rw [ends, Bool.and_eq_true] at h1
    exact ⟨t, rfl, he, eq_of_beq h1.2⟩
  obtain ⟨t, ht, he, hb⟩ := h (exec .enc (context plain)) test_enc_golden (by decide +kernel)
  obtain ⟨w, hw, -⟩ := next_of_completes
    (o := exec .dec { context (hexBytes 8 0x45166c449c279df2) with iv := 0x00 }) (by decide +kernel)
  refine ⟨t, w, by show 8 ≤ 512; decide, by show 6 ≤ 512; decide, rfl, ht, rfl, rfl, fun _ _ => rfl,
    ⟨rfl, fun _ _ => rfl⟩, rfl, rfl, by decide +kernel, by decide +kernel, ?_, hw, he⟩
  intro i hi
  have h7 : i < 7 := hi
  have hf : ∀ i, i < 7 → (State.byteAt { context (hexBytes 8 0x45166c449c279df2) with iv := 0x00 } .data (1 + i)) =
      (hexBytes 7 0x166c449c279df2).getD i 0x00 := by decide +kernel
  rw [hf i h7, ← hb, List.getD_eq_getElem _ _ (by simpa using h7)]
  simp

theorem find_cells : ∀ (bs : List Byte) (a i : Nat), i < bs.length →
    Memory.find (cells a bs) (a + i) = some (bs.getD i 0x00)
  | b :: _, a, 0, _ => by simp [cells, Memory.find]
  | b :: rest, a, i + 1, h => by
    have ih := find_cells rest (a + 1) i (by simpa using h)
    rw [show a + 1 + i = a + (i + 1) by omega] at ih
    simp [cells, Memory.find, ih]

/-- The same hypotheses where ENC overruns: 256 bytes of plaintext, and the buffer framed with the IV in front. -/
theorem witness_DecOfFramedEnc_overrun : ∃ s t f w : State,
    Fits s.params.dataMax (s.len + 1) ∧ Fits s.params.pwMax s.pw2len ∧ s.status.keyv = true ∧
    exec .enc s = .next t ∧ f.params = s.params ∧ f.status.keyv = true ∧ SameGamma s f ∧ SamePw2 s f ∧
    f.ghash = s.ghash ∧ f.pwhash = s.pwhash ∧ f.len = s.len + 1 ∧ f.byteAt .data 0 = s.iv ∧
    (∀ i, i < s.len → f.byteAt .data (1 + i) = t.byteAt .data i) ∧ exec .dec f = .next w ∧
    t.status.err = .grange ∧ w.status.err = .grange := by
  have hfit : Fits (longWindow 256).params.dataMax 257 := by show 257 ≤ 512; decide
  have hpw : Fits (longWindow 256).params.pwMax (longWindow 256).pw2len := by show 6 ≤ 512; decide
  have hov := witness_overrun_hypotheses.2.1
  obtain ⟨t, ht, hr⟩ := round_overrun (i := .enc)
    (checked_enc (s := longWindow 256) (by show 256 ≤ 512; decide) hpw rfl) rfl hov
  let bytes : List Byte := (longWindow 256).iv :: (List.range 256).map (t.byteAt .data)
  let f : State := { longWindow 256 with len := 257, data := cells 0 bytes }
  obtain ⟨w, hw, hr'⟩ := round_overrun (i := .dec)
    (checked_dec (s := f) hfit hpw rfl (by show 1 ≤ 257; decide)) rfl hov
  have hbyte : ∀ i, i < 257 → f.byteAt .data i = bytes.getD i 0x00 := by
    intro i hi
    have h := find_cells bytes 0 i (by simpa [bytes] using hi)
    rw [Nat.zero_add] at h
    show (match Memory.find (cells 0 bytes) i with
      | some b => b
      | none => Config.drawnCell .data 0 i) = _
    rw [h]
  refine ⟨longWindow 256, t, f, w, hfit, hpw, rfl, ht, rfl, rfl, fun _ _ => rfl, ⟨rfl, fun _ _ => rfl⟩, rfl, rfl, rfl,
    hbyte 0 (by decide), fun i hi => ?_, hw, by rw [hr.rest]; rfl, by rw [hr'.rest]; rfl⟩
  have h256 : i < 256 := hi
  rw [hbyte (1 + i) (by omega), Nat.add_comm 1 i]
  simp [bytes, h256]

/-! ### All commands -/

/-- For the frames, `NoCommandWritesLengthsIvOrPasswords` and `OverrunExactlyWhenTheCursorReaches255`: every command
completes on this state. -/
theorem witness_every_command_completes : ∀ i ∈ commands, ∃ t, exec i (context plain) = .next t ∧ t.status.err = .none := by
  have h : ∀ i ∈ commands, completes (exec i (context plain)) = true := by decide +kernel
  exact fun i hi => next_of_completes (h i hi)

/-- The two classes of commands are both inhabited. -/
theorem witness_round_commands : IsRound .rnd1E ∧ IsRound .dec ∧ ¬ IsRound .kgen ∧ ¬ IsRound .init := by
  simp [IsRound]

/-- Two states that differ in scratch registers, CMDR, the IV register and what lies beyond the lengths, and agree on
the operands of DEC. -/
theorem witness_ResultsDependOnOperandsOnly :
    let s := context (hexBytes 8 0x45166c449c279df2)
    let t := { s with scratch := Scratch.drawn 1, cmdr := 0xFF, iv := 0x99, pw1 := [] }
    s.params = t.params ∧ SameOperands .dec s t ∧ (∃ s', exec .dec s = .next s' ∧ s'.status.err = .none) ∧
    ∃ t', exec .dec t = .next t' ∧ t'.status.err = .none :=
  ⟨rfl, ⟨rfl, fun _ _ => rfl, rfl, ⟨rfl, fun _ _ => rfl⟩, rfl, rfl, fun _ _ => rfl⟩,
    next_of_completes (by decide +kernel), next_of_completes (by decide +kernel)⟩

/-- The same for every command, the scratch registers and CMDR differing. -/
theorem witness_same_operands : ∀ i ∈ commands,
    SameOperands i (context plain) { context plain with scratch := Scratch.drawn 1, cmdr := 0xFF } := by
  intro i _
  cases i <;> simp [SameOperands, SameGamma, SameBytes, SamePw1, SamePw2, SameBuffer, State.byteAt, State.store, State.mem]

/-- One state for each clause of the checks: a length one above its capacity, a context that is not valid, an empty
buffer for DEC, and a state on which nothing fails. -/
theorem witness_ChecksFaultInOrderBeforeAnyWrite :
    ¬ Fits loaded.params.pwMax 513 ∧ ¬ Fits loaded.params.dataMax 513 ∧ Fits loaded.params.pwMax 512 ∧
    loaded.status.keyv = false ∧ (context []).status.keyv = true ∧ (context []).len = 0 ∧
    (context plain).status.keyv = true ∧ (context plain).len ≠ 0 := by
  refine ⟨?_, ?_, Nat.le_refl 512, rfl, rfl, rfl, rfl, ?_⟩
  · show ¬ 513 ≤ 512; decide
  · show ¬ 513 ≤ 512; decide
  · decide +kernel

/-! ### The machine -/

/-- For `ShortPasswordsNeverOverrun`, together with `witness_KgenRetainsTheTail`. -/
theorem witness_ShortPasswordsNeverOverrun : loaded.pw1len < 255 := by decide

theorem witness_BusyBeginsWithACmdWriteAndEndsWithTheCommand :
    (∃ t, step (idle [.cmd .enc]) = .next t ∧ (idle [.cmd .enc]).status.busy = false ∧ t.status.busy = true) ∧
    (∃ t, step (busyWith [.reset]) = .next t ∧ (busyWith [.reset]).status.busy = true ∧ t.status.busy = false) ∧
    ∃ t, step (running 0x61) = .next t ∧ (running 0x61).status.busy = true ∧ t.status.busy = false :=
  ⟨⟨_, rfl, rfl, rfl⟩, ⟨_, rfl, rfl, rfl⟩, ⟨_, rfl, rfl, rfl⟩⟩

/-- A fault that waits, in a state that meets the invariant. -/
theorem witness_FaultStaysUntilAcknowledgeOrReset : ∀ l ∈ [HostLine.ack, .reset, .wr .STATUS 9, .cmd .enc, .rd .LEN],
    Inv { State.reset with status := faulted .len false, script := [l] } ∧
    (∃ t, step { State.reset with status := faulted .len false, script := [l] } = .next t) ∧
    (faulted .len false).err ≠ .none := by
  intro l hl
  refine ⟨⟨rfl, fun sp => by cases sp <;> exact ⟨rfl, rfl⟩, fun h => ?_, fun _ => rfl, fun h => ?_⟩, ?_, by decide⟩
  · cases h
  · cases h
  · simp only [List.mem_cons, List.not_mem_nil, or_false] at hl
    rcases hl with rfl | rfl | rfl | rfl | rfl <;> exact ⟨_, rfl⟩

theorem witness_StepKeepsTheParameters : ∃ t, step (running 0x20) = .next t :=
  (next_of_completes (o := step (running 0x20)) (by decide +kernel)).imp fun _ h => h.1

/-- A state in which the invariant says something of the context: INIT has just run, and the host writes LEN next. -/
theorem witness_StepKeepsTheInvariant : ∃ s t, Inv s ∧ s.status.keyv = true ∧ step s = .next t := by
  have hc : Checked .init loaded := (precheck_none_iff _ _).mp (by decide)
  obtain ⟨u, hu, hi⟩ := exec_init_ok hc
  have hs : u.status = completed true := congrArg State.status hi.rest
  have hp : u.params = loaded.params := by have h := congrArg State.params hi.rest; exact h
  have hpw : u.byteAt .pw2 = loaded.byteAt .pw2 ∧ u.pw2len = loaded.pw2len := by rw [hi.rest]; exact ⟨rfl, rfl⟩
  have hm : MemoriesOk u := by
    intro sp
    rw [hp]
    by_cases h : sp = .gamma
    · subst h; exact ⟨hi.upd.wf rfl, hi.upd.within rfl⟩
    · have hmem : u.mem sp = loaded.mem sp := by rw [hi.rest]; cases sp <;> first | rfl | exact absurd rfl h
      rw [hmem]
      cases sp <;> exact ⟨by decide +kernel, by decide +kernel⟩
  have hu : Inv u := by
    refine ⟨by rw [hp]; decide, hm, by rw [hs]; simp [completed], by rw [hs]; simp [completed], fun _ => ⟨hi.ghash, ?_, _, _,
      hi.bytes⟩⟩
    rw [hpw.1, hpw.2]; exact hi.pwhash
  refine ⟨{ u with script := [.wr .LEN 3], turns := [.host] }, { u with script := [], turns := [], len := 3 }, hu, by
    simp [hs, completed], ?_⟩
  have hb : u.status.busy = false := by rw [hs]; rfl
  simp only [step, State.nextAgent, hostStep, State.tookTurn, hostLine, hostWrite, hb, Bool.false_eq_true, if_false]
  rfl

end Sys2Proof.Tests
end

/-! # The scope of the model: the parameters and the rotates (spec/00_scope.md) -/

namespace Sys2Proof.Machine

/-! ## The parameters along a step (R6) -/

/-- Every command keeps the parameters, whichever way it ends. -/
theorem exec_next_params {i : Instr} {s t : State} (h : exec i s = .next t) : t.params = s.params := by
  obtain ⟨-, he⟩ | ⟨-, -, -, u, ⟨hu, -⟩, he⟩ | ⟨-, -, -, u, ⟨hu, -⟩, he⟩ | ⟨-, -, u, hu, he⟩ | ⟨-, r, he⟩ |
    ⟨-, -, r, he⟩ | ⟨-, -, u, hu, he⟩ := exec_cases i s <;> rw [he] at h <;> cases h
  · rfl
  · rw [State.complete_params, hu.rest]
  · rw [State.enterFault_params, hu.rest]
  · rw [State.complete_params, State.setKeyv_params, hu.rest]
  · rfl
  · rfl
  · rw [hu.rest]

/-- The engine's step keeps them: a latched word is a command or raises ERR_ILLCMD, and an idle engine rests. -/
theorem engineStep_next_params {s t : State} (h : engineStep s = .next t) : t.params = s.params := by
  unfold engineStep at h
  split at h
  · split at h
    · exact exec_next_params h
    · cases h; rfl
  · cases h; rfl

theorem writeCmd_params (w : Byte) (s : State) : (writeCmd w s).params = s.params := by
  unfold writeCmd; split <;> rfl

theorem hostStore_params (t : Target) (v : Nat) (s : State) : (hostStore t v s).params = s.params := by
  unfold hostStore
  split
  case h_1 => exact writeCmd_params _ s
  case h_10 sp a => dsimp only; split <;> simp
  all_goals rfl

theorem hostWrite_next_params {t : Target} {v : Nat} {s u : State} (h : hostWrite t v s = .next u) :
    u.params = s.params := by
  obtain ⟨-, -, -, rfl⟩ := hostWrite_next h
  exact hostStore_params t v s

theorem hostRead_next_params {t : Target} {s u : State} (h : hostRead t s = .next u) : u.params = s.params := by
  obtain ⟨-, -, rfl⟩ := hostRead_next h
  rfl

theorem hostLine_next_params {l : HostLine} {s t : State} (h : hostLine l s = .next t) : t.params = s.params := by
  cases l with
  | wr _ _ | cmd _ | ack => exact hostWrite_next_params h
  | rd _ => exact hostRead_next_params h
  | reset => cases h; rfl
  | wait => rw [hostRead_next_params h]; split <;> rfl

theorem hostStep_next_params {s t : State} (h : hostStep s = .next t) : t.params = s.params := by
  unfold hostStep at h
  split at h
  · cases h; rfl
  · rw [hostLine_next_params h]

/-! ## The rotates as arithmetic (R10) -/

/-- The two parts of a rotated byte do not carry into each other: the high part is a multiple of 2^r below 256, the low
part is below 2^r. -/
theorem rotated_lt {v r : Nat} (hv : v < 256) (hr : r ≤ 8) : v * 2 ^ r % 256 + v / 2 ^ (8 - r) < 256 := by
  have hpq : 2 ^ (8 - r) * 2 ^ r = 256 := by rw [← Nat.pow_add, Nat.sub_add_cancel hr]
  have hlow : v / 2 ^ (8 - r) < 2 ^ r := Nat.div_lt_of_lt_mul (by omega)
  have hhigh : v % 2 ^ (8 - r) < 2 ^ (8 - r) := Nat.mod_lt _ (by positivity)
  calc v * 2 ^ r % 256 + v / 2 ^ (8 - r)
      = v % 2 ^ (8 - r) * 2 ^ r + v / 2 ^ (8 - r) := by rw [← Nat.mul_mod_mul_right, hpq]
    _ < (v % 2 ^ (8 - r) + 1) * 2 ^ r := by rw [Nat.succ_mul]; omega
    _ ≤ 2 ^ (8 - r) * 2 ^ r := Nat.mul_le_mul_right _ hhigh
    _ = 256 := hpq

theorem rol8_toNat (v : Byte) (n : Nat) :
    (rol8 v n).toNat = v.toNat * 2 ^ (n % 8) % 256 + v.toNat / 2 ^ (8 - n % 8) := by
  have hv : v.toNat < 256 := v.isLt
  unfold rol8
  split
  case isTrue h => rw [h]; omega
  case isFalse =>
    rw [BitVec.toNat_add, BitVec.toNat_shiftLeft, BitVec.toNat_ushiftRight, Nat.shiftLeft_eq, Nat.shiftRight_eq_div_pow]
    exact Nat.mod_eq_of_lt (rotated_lt hv (by omega))

/-- Rotating right is rotating left by the rest of the byte. -/
theorem ror8_eq_rol8 (v : Byte) (n : Nat) : ror8 v n = rol8 v (8 - n % 8) := by
  by_cases h : n % 8 = 0
  · simp [ror8, rol8, h]
  · have hr : (8 - n % 8) % 8 = 8 - n % 8 := Nat.mod_eq_of_lt (by omega)
    have hn : 8 - (8 - n % 8) = n % 8 := by omega
    rw [ror8, rol8, if_neg h, hr, if_neg (by omega), hn, BitVec.add_comm]

theorem ror8_toNat (v : Byte) (n : Nat) :
    (ror8 v n).toNat = v.toNat / 2 ^ (n % 8) + v.toNat * 2 ^ (8 - n % 8) % 256 := by
  by_cases h : n % 8 = 0
  · simp [ror8, h]
  · rw [ror8_eq_rol8, rol8_toNat, Nat.mod_eq_of_lt (by omega : 8 - n % 8 < 8), Nat.sub_sub_self (by omega : n % 8 ≤ 8), Nat.add_comm]

end Sys2Proof.Machine

namespace Sys2Proof.Proofs

open Sys2Proof.Machine

/-- Settles O56: each agent's step answers next states with the parameters it started from. -/
theorem stepKeepsTheParameters : Obligations.StepKeepsTheParameters := by
  intro s t h
  cases hn : s.nextAgent with
  | engine => rw [step_engine hn] at h; rw [engineStep_next_params h, State.tookTurn_params]
  | host => rw [step_host hn] at h; rw [hostStep_next_params h, State.tookTurn_params]

/-- Settles O1: the arithmetic forms, the moves of bits, and the rotates' inversion, each a law of the rotates. -/
theorem rotatesMoveBitsModuloEight : Obligations.RotatesMoveBitsModuloEight := fun v n =>
  ⟨rol8_toNat v n, ror8_toNat v n, rol8_getLsbD v n, ror8_getLsbD v n, ror8_eq_rol8 v n, rol8_ror8 v n⟩

end Sys2Proof.Proofs

/-! # The state: STATUS, its bit KEYV, and reset (spec/10_state.md) -/

namespace Sys2Proof.Machine

open Safety

/-! ## The byte a read of STATUS returns (R24, R241) -/

theorem Status.byte_getLsbD (st : Status) (i : Nat) : st.byte.getLsbD i =
    match i with
    | 0 => st.busy
    | 1 => st.done
    | 2 => st.keyv
    | 3 => false
    | i + 4 => st.err.code.getLsbD i := by
  unfold Status.byte
  rcases i with _ | _ | _ | _ | i <;> simp only [BitVec.getLsbD_append] <;> simp
  exact BitVec.lt_of_getLsbD

/-- The field ERR is the fault code itself. -/
theorem Status.byte_extract_err (st : Status) : st.byte.extractLsb' 4 3 = st.err.code := by
  refine BitVec.eq_of_getLsbD_eq fun i hi => ?_
  rw [BitVec.getLsbD_extractLsb', Nat.add_comm 4 i, Status.byte_getLsbD, decide_eq_true hi, Bool.true_and]

/-! ## STATUS after the engine's step -/

/-- What a command that completes leaves in KEYV where it found k (R33). -/
def keyvAfter : Instr → Bool → Bool
  | .init, _ => true
  | .kgen, _ | .dgstG, _ | .dgstP, _ => false
  | .rnd1E, k | .rnd1D, k | .rnd2E, k | .rnd2D, k | .rnd3E, k | .rnd3D, k | .enc, k | .dec, k => k

theorem keyvAfter_of_isRound {i : Instr} (hi : IsRound i) (k : Bool) : keyvAfter i k = k := by
  cases i <;> simp [IsRound] at hi <;> rfl

/-- A command ends by a fault that keeps KEYV, or completes. -/
theorem exec_next_status {i : Instr} {s t : State} (h : exec i s = .next t) :
    (∃ e, e ≠ .none ∧ t.status = faulted e s.status.keyv) ∨
    (Checked i s ∧ t.status = completed (keyvAfter i s.status.keyv)) := by
  obtain ⟨hp, he⟩ | ⟨hc, hr, -, u, ⟨hu, -⟩, he⟩ | ⟨-, -, -, u, ⟨hu, -⟩, he⟩ | ⟨rfl, hc, u, hu, he⟩ | ⟨rfl, r, he⟩ |
    ⟨rfl, hc, r, he⟩ | ⟨rfl, hc, u, hu, he⟩ := exec_cases i s <;> rw [he] at h <;> cases h
  · exact .inl ⟨_, hp, rfl⟩
  · exact .inr ⟨hc, by rw [keyvAfter_of_isRound hr, State.complete_status, hu.rest]; rfl⟩
  · exact .inl ⟨.grange, by decide, by rw [State.enterFault_status, hu.rest]; rfl⟩
  · exact .inr ⟨hc, rfl⟩
  · exact .inr ⟨checked_dgstG s, rfl⟩
  · exact .inr ⟨hc, rfl⟩
  · exact .inr ⟨hc, congrArg State.status hu.rest⟩

/-- The engine rests, or its latched word ends by a fault that keeps KEYV, or the command it names completes. -/
theorem engineStep_next_status {s t : State} (h : engineStep s = .next t) :
    (s.status.busy = false ∧ t = s) ∨
    (s.status.busy = true ∧ ((∃ e, e ≠ .none ∧ t.status = faulted e s.status.keyv) ∨
      ∃ i, s.cmdr = encode i ∧ Checked i s ∧ t.status = completed (keyvAfter i s.status.keyv))) := by
  unfold engineStep at h
  split at h
  case isTrue hb =>
    refine .inr ⟨hb, ?_⟩
    split at h
    case h_1 i hd => exact (exec_next_status h).imp_right fun hi => ⟨i, eq_encode_of_decode hd, hi⟩
    case h_2 => cases h; exact .inl ⟨.illcmd, by decide, rfl⟩
  case isFalse hb => cases h; exact .inl ⟨Bool.eq_false_iff.mpr hb, rfl⟩

/-! ## STATUS after a host line -/

/-- What a host write to a target makes of STATUS (R67): CMD begins a command unless a fault waits, STATUS acknowledges,
and the targets of the context clear KEYV. -/
def Target.statusAfter (st : Status) : Target → Status
  | .csr 0 => if st.err = .none then { st with busy := true, done := false } else st
  | .csr 1 => { st with done := false, err := .none }
  | .csr 3 | .csr 4 | .csr 7 => { st with keyv := false }
  | .csr _ => st
  | .mem sp _ => if Space.ofContext sp then { st with keyv := false } else st

/-- What a host line that is a move makes of STATUS (R100). -/
def HostLine.statusAfter (st : Status) : HostLine → Status
  | .wr t _ => t.statusAfter st
  | .cmd _ => Target.CMD.statusAfter st
  | .ack => Target.STATUS.statusAfter st
  | .reset => { busy := false, done := false, keyv := false, err := .none }
  | .rd _ | .wait => st

theorem writeCmd_status (w : Byte) (s : State) : (writeCmd w s).status = Target.CMD.statusAfter s.status := by
  unfold writeCmd Target.statusAfter; split <;> rfl

theorem hostStore_status (t : Target) (v : Nat) (s : State) : (hostStore t v s).status = t.statusAfter s.status := by
  unfold hostStore
  split
  case h_1 => exact writeCmd_status _ s
  case h_9 => unfold Target.statusAfter; split <;> simp_all
  case h_10 sp a => cases sp <;> rfl
  all_goals rfl

theorem hostWrite_next_status {t : Target} {v : Nat} {s u : State} (h : hostWrite t v s = .next u) :
    u.status = t.statusAfter s.status := by
  obtain ⟨-, -, -, rfl⟩ := hostWrite_next h
  exact hostStore_status t v s

theorem hostRead_next_status {t : Target} {s u : State} (h : hostRead t s = .next u) : u.status = s.status := by
  obtain ⟨-, -, rfl⟩ := hostRead_next h
  rfl

theorem hostLine_next_status {l : HostLine} {s t : State} (h : hostLine l s = .next t) :
    t.status = l.statusAfter s.status := by
  cases l with
  | wr _ _ | cmd _ | ack => exact hostWrite_next_status h
  | rd _ => exact hostRead_next_status h
  | reset => cases h; rfl
  | wait => rw [hostRead_next_status h]; split <;> rfl

/-- The host's script is over and its step changes no STATUS, or its first line makes of STATUS what the line makes. -/
theorem hostStep_next_status {s t : State} (h : hostStep s = .next t) :
    (s.script.head? = none ∧ t.status = s.status) ∨
    ∃ l, s.script.head? = some l ∧ t.status = l.statusAfter s.status := by
  unfold hostStep at h
  split at h
  case h_1 hs => cases h; exact .inl ⟨by rw [hs]; rfl, rfl⟩
  case h_2 l rest hs => exact .inr ⟨l, by rw [hs]; rfl, by rw [hostLine_next_status h]⟩

/-- The host's turn performs the first line of its script. -/
theorem step_host_line {s : State} {l : HostLine} {rest : List HostLine} (hn : s.nextAgent = .host)
    (hs : s.script = l :: rest) : step s = hostLine l { s.tookTurn with script := rest } := by
  rw [step_host hn, hostStep, State.tookTurn_script, hs]

/-! ### KEYV and BUSY along a host line (R33, R23) -/

/-- The host lines that clear KEYV (R33): reset, and a write to anything of the context. -/
def HostLine.TouchesContext (l : HostLine) : Prop :=
  l = .reset ∨ ∃ v, l = .wr .GHASH v ∨ l = .wr .PWHASH v ∨ l = .wr .PW2LEN v ∨
    ∃ a, l = .wr (.mem .gamma a) v ∨ l = .wr (.mem .pw2 a) v

theorem HostLine.statusAfter_keyv_of_touches {l : HostLine} (hl : l.TouchesContext) (st : Status) :
    (l.statusAfter st).keyv = false := by
  obtain rfl | ⟨v, rfl | rfl | rfl | ⟨a, rfl | rfl⟩⟩ := hl <;> rfl

/-- A write that changes KEYV goes to the context. -/
theorem Target.statusAfter_keyv (t : Target) (st : Status) : (t.statusAfter st).keyv = st.keyv ∨
    t = .GHASH ∨ t = .PWHASH ∨ t = .PW2LEN ∨ ∃ a, t = .mem .gamma a ∨ t = .mem .pw2 a := by
  unfold Target.statusAfter
  split
  case h_1 => split <;> exact .inl rfl
  case h_3 => exact .inr (.inl rfl)
  case h_4 => exact .inr (.inr (.inl rfl))
  case h_5 => exact .inr (.inr (.inr (.inl rfl)))
  case h_7 sp a =>
    cases sp with
    | pw1 | data => exact .inl rfl
    | gamma => exact .inr (.inr (.inr (.inr ⟨a, .inl rfl⟩)))
    | pw2 => exact .inr (.inr (.inr (.inr ⟨a, .inr rfl⟩)))
  all_goals exact .inl rfl

theorem HostLine.statusAfter_keyv_of_not_touches {l : HostLine} (hl : ¬ l.TouchesContext) (st : Status) :
    (l.statusAfter st).keyv = st.keyv := by
  cases l with
  | wr t v =>
    refine (t.statusAfter_keyv st).resolve_right fun ht => hl (.inr ⟨v, ?_⟩)
    obtain rfl | rfl | rfl | ⟨a, rfl | rfl⟩ := ht <;> simp
  | cmd _ => exact (Target.CMD.statusAfter_keyv st).resolve_right (by simp)
  | rd _ | wait | ack => rfl
  | reset => exact absurd (.inl rfl) hl

/-- Only a write to CMD can set BUSY, and only where no fault waits. -/
theorem Target.statusAfter_busy {t : Target} {st : Status} :
    (t.statusAfter st).busy = st.busy ∨ ((t.statusAfter st).busy = true ∧ t = .CMD ∧ st.err = .none) := by
  unfold Target.statusAfter
  split
  case h_1 =>
    split
    case isTrue he => exact .inr ⟨rfl, rfl, he⟩
    case isFalse => exact .inl rfl
  case h_7 => split <;> exact .inl rfl
  all_goals exact .inl rfl

/-- A host line keeps BUSY, or is an accepted CMD write, or is reset. -/
theorem HostLine.statusAfter_busy (l : HostLine) (st : Status) :
    (l.statusAfter st).busy = st.busy ∨
    ((l.statusAfter st).busy = true ∧ st.err = .none ∧ ((∃ v, l = .wr .CMD v) ∨ ∃ m, l = .cmd m)) ∨
    ((l.statusAfter st).busy = false ∧ l = .reset) := by
  cases l with
  | wr t v => exact Target.statusAfter_busy.imp_right fun ⟨hb, ht, he⟩ => .inl ⟨hb, he, .inl ⟨v, by rw [ht]⟩⟩
  | cmd m => exact Target.statusAfter_busy.imp_right fun ⟨hb, _, he⟩ => .inl ⟨hb, he, .inr ⟨m, rfl⟩⟩
  | rd _ | wait | ack => exact .inl rfl
  | reset => exact .inr (.inr ⟨rfl, rfl⟩)

/-! ## The acknowledge (R24) -/

/-- A write of a byte to STATUS while idle is a move and acknowledges, whatever the byte. -/
theorem hostWrite_status_next {v : Nat} {s : State} (hb : s.status.busy = false) (hv : v < 256) :
    hostWrite .STATUS v s =
      .next { s with status := { busy := false, done := false, keyv := s.status.keyv, err := .none } } := by
  have hholds : Target.STATUS.holds v = true := decide_eq_true hv
  rw [hostWrite_ok hb rfl hholds]
  simp [hostStore, State.acknowledge, hb]

/-! ## The invariant after reset (R37) -/

theorem memoriesOk_afterReset (ps : Params) (n : Nat) : MemoriesOk (State.afterReset ps n) := by
  intro sp
  cases sp <;> exact ⟨rfl, rfl⟩

/-- Under legal parameters the state after any draw meets the invariant: the memories list no cell, nothing runs, no
fault waits and no context is claimed. -/
theorem inv_afterReset {ps : Params} (hp : ps.wf = true) (n : Nat) : Inv (State.afterReset ps n) :=
  ⟨hp, memoriesOk_afterReset ps n, fun _ => ⟨rfl, rfl⟩, fun he => absurd rfl he, fun hk => nomatch hk⟩

end Sys2Proof.Machine

namespace Sys2Proof.Proofs

open Sys2Proof.Machine Sys2Proof.Safety

/-- Settles O4: the engine's turn changes KEYV as the command that completes does, the host's as its line does. -/
theorem keyvChangesOnlyAsTheContextDoes : Obligations.KeyvChangesOnlyAsTheContextDoes := by
  intro s t h
  cases hn : s.nextAgent with
  | engine =>
    rw [step_engine hn] at h
    obtain ⟨hb, rfl⟩ | ⟨hb, ⟨e, he, hs⟩ | ⟨i, hi, hc, hs⟩⟩ := engineStep_next_status h
    · rw [State.tookTurn_status] at hb
      simp [hb]
    · simp [hs, faulted, he]
    · rw [State.tookTurn_status] at hb hs
      rw [State.tookTurn_cmdr] at hi
      have hkey : usesKey i = true → s.status.keyv = true := hc.key
      simp only [hb, hi, hs, completed]
      cases i
      case enc | dec => simpa [encode, keyvAfter] using hkey rfl
      all_goals simp [encode, keyvAfter]
  | host =>
    rw [step_host hn] at h
    obtain ⟨hl, hs⟩ | ⟨l, hl, hs⟩ := hostStep_next_status h <;>
      rw [State.tookTurn_script] at hl <;> rw [State.tookTurn_status] at hs
    · simp [hl, hs]
    · have htouch : l.TouchesContext → t.status.keyv = false := fun hc =>
        hs ▸ HostLine.statusAfter_keyv_of_touches hc s.status
      have hkeep : ¬ l.TouchesContext → t.status.keyv = s.status.keyv := fun hc =>
        hs ▸ HostLine.statusAfter_keyv_of_not_touches hc s.status
      simp only [hl, reduceCtorEq, false_and, false_or, true_and, Option.some_inj, false_implies, not_false_eq_true,
        true_implies, and_true]
      exact ⟨htouch, hkeep⟩

/-- Settles O54: the engine's turn ends every command it begins; the host's line keeps BUSY but for an accepted CMD
write and reset. -/
theorem busyBeginsWithACmdWriteAndEndsWithTheCommand :
    Obligations.BusyBeginsWithACmdWriteAndEndsWithTheCommand := by
  intro s t h
  cases hn : s.nextAgent with
  | engine =>
    rw [step_engine hn] at h
    obtain ⟨hb, rfl⟩ | ⟨hb, ⟨e, -, hs⟩ | ⟨i, -, -, hs⟩⟩ := engineStep_next_status h <;>
      rw [State.tookTurn_status] at hb
    · simp [hb]
    · simp [hs, faulted]
    · simp [hs, completed]
  | host =>
    rw [step_host hn] at h
    obtain ⟨-, hs⟩ | ⟨l, hl, hs⟩ := hostStep_next_status h <;> rw [State.tookTurn_status] at hs <;> rw [hs]
    · cases s.status.busy <;> simp
    · rw [State.tookTurn_script] at hl
      obtain hb | ⟨hb, he, hw⟩ | ⟨hb, hr⟩ := l.statusAfter_busy s.status <;> rw [hb]
      · cases s.status.busy <;> simp
      · simpa [he, hl] using fun _ => hw
      · simp [hl, hr]

/-- Settles O2: each bit by its place in the byte, bit 7 as the bit beyond the three of the fault code. -/
theorem statusByteLayout : Obligations.StatusByteLayout := by
  intro st
  have h7 : st.byte.getLsbD 7 = false := (st.byte_getLsbD 7).trans (BitVec.getLsbD_of_ge _ 3 le_rfl)
  refine ⟨st.byte_getLsbD 0, st.byte_getLsbD 1, st.byte_getLsbD 2, st.byte_getLsbD 3, h7, ?_⟩
  rw [Status.byte_extract_err]
  cases st.err <;> rfl

/-- Settles O3: the fields of the reset state, and the two reads that depend on them alone. -/
theorem resetClearsTheControlState : Obligations.ResetClearsTheControlState :=
  ⟨rfl, rfl, rfl, rfl, rfl, rfl⟩

/-- Settles O52: `ack` is a write of 0 to STATUS, and every such write acknowledges. -/
theorem acknowledgeReturnsToService : Obligations.AcknowledgeReturnsToService := by
  intro s v rest hn hb hv hs
  obtain ⟨l, w, hs, hw, hl⟩ : ∃ l w, s.script = l :: rest ∧ w < 256 ∧ hostLine l = hostWrite .STATUS w :=
    hs.elim (fun hs => ⟨.ack, 0, hs, by decide, rfl⟩) fun hs => ⟨.wr .STATUS v, v, hs, hv, rfl⟩
  rw [step_host_line hn hs, hl]
  exact hostWrite_status_next hb hw

/-- Settles O57: the parameters of `State.reset` are legal, and legal parameters are all the invariant asks of reset. -/
theorem resetMeetsTheInvariant : Obligations.ResetMeetsTheInvariant := inv_afterReset (by decide) 0

end Sys2Proof.Proofs

/-! # The host's access to the spaces, and the commands inside them (spec/20_memory.md) -/

namespace Sys2Proof.Machine

/-! ## Where a host access is a move, and how it is refused (R68, R69) -/

theorem mayRead_of_idle {s : State} (hb : s.status.busy = false) (t : Target) : mayRead s t = true := by
  simp [mayRead, hb]

theorem mayRead_status (s : State) : mayRead s .STATUS = true := by simp [mayRead]

theorem hostWrite_busy {s : State} (hb : s.status.busy = true) (t : Target) (v : Nat) :
    hostWrite t v s = .refused (.busyAccess t) := by
  simp [hostWrite, hb]

theorem hostRead_busy {s : State} {t : Target} (hb : s.status.busy = true) (ht : t ≠ .STATUS) :
    hostRead t s = .refused (.busyAccess t) := by
  simp [hostRead, mayRead, hb, ht]

theorem hostWrite_missing {s : State} {t : Target} (hb : s.status.busy = false) (he : t.exists s.params = false)
    (v : Nat) : hostWrite t v s = .refused (.noSuchTarget t) := by
  simp [hostWrite, hb, he]

theorem hostRead_missing {s : State} {t : Target} (hb : s.status.busy = false) (he : t.exists s.params = false) :
    hostRead t s = .refused (.noSuchTarget t) := by
  simp [hostRead, mayRead_of_idle hb, he]

theorem inside_bounded_eq_false {n a : Nat} (h : n ≤ a) : inside (.bounded n) a = false :=
  decide_eq_false (Nat.not_lt.mpr h)

theorem Target.csr_missing {no : Nat} (h : 8 ≤ no) (ps : Params) : (Target.csr no).exists ps = false :=
  decide_eq_false (Nat.not_lt.mpr h)

theorem Target.mem_missing {ps : Params} {sp : Space} {n a : Nat} (hn : Params.size ps sp = .bounded n) (h : n ≤ a) :
    (Target.mem sp a).exists ps = false := by
  rw [Target.exists, hn, inside_bounded_eq_false h]

/-! ## A host write to a memory (R67) -/

/-- The write is read back at its index and nowhere else. -/
theorem hostStore_mem_byteAt (s : State) (sp : Space) (a v : Nat) (sp' : Space) (a' : Nat) :
    (hostStore (.mem sp a) v s).byteAt sp' a' =
      if (sp', a') = (sp, a) then BitVec.ofNat 8 v else s.byteAt sp' a' := by
  rw [← setMem_byteAt s sp a (BitVec.ofNat 8 v) sp' a', hostStore]
  split
  · rw [State.setKeyv_byteAt]
  · rfl

/-- The write changes nothing but the cells of the memories, and KEYV where the memory is of the context. -/
theorem hostStore_mem_rest (s : State) (sp : Space) (a v : Nat) :
    hostStore (.mem sp a) v s =
      { s with pw1 := (hostStore (.mem sp a) v s).pw1, pw2 := (hostStore (.mem sp a) v s).pw2
               gamma := (hostStore (.mem sp a) v s).gamma, data := (hostStore (.mem sp a) v s).data
               status := { s.status with keyv := if sp = .gamma ∨ sp = .pw2 then false else s.status.keyv } } := by
  cases sp <;> rfl

/-! ## Every command ends inside its spaces (R79) -/

/-- No command faults or is refused: each of the ways in which it can end is a next state. -/
theorem exec_next (i : Instr) (s : State) : ∃ t, exec i s = .next t := by
  obtain ⟨-, h⟩ | ⟨-, -, -, t, -, h⟩ | ⟨-, -, -, t, -, h⟩ | ⟨-, -, u, -, h⟩ | ⟨-, r, h⟩ | ⟨-, -, r, h⟩ |
    ⟨-, -, t, -, h⟩ := exec_cases i s
  all_goals exact ⟨_, h⟩

end Sys2Proof.Machine

namespace Sys2Proof.Proofs

open Sys2Proof.Machine

/-- Settles O5: an idle engine and the target STATUS are the two cases in which the host may read, and the value of each
target is the model's read of it. -/
theorem hostReadsReturnTheValueAndChangeNothing : Obligations.HostReadsReturnTheValueAndChangeNothing := by
  intro s t rest hn hs he hb
  have hr : mayRead { s.tookTurn with script := rest } t = true := by
    obtain hb | rfl := hb
    · exact mayRead_of_idle hb t
    · exact mayRead_status _
  refine ⟨hostValue s t, ?step, ?_, ?_, ?_, ?_, ?_, ?_, ?_, ?_, ?mem⟩
  case step =>
    rw [step_host_line hn hs]
    exact hostRead_ok hr he
  case mem =>
    rintro sp a rfl
    rfl
  all_goals rintro rfl; rfl

/-- Settles O6: the line is a move, so the step is `hostStore`, whose branch for each target is the listed effect. -/
theorem hostWritesStoreTheirValueWithListedSideEffects :
    Obligations.HostWritesStoreTheirValueWithListedSideEffects := by
  intro s t v rest hn hs hb he hv u
  have hstep : step s = .next (hostStore t v u) := by
    rw [step_host_line hn hs]
    exact hostWrite_ok hb he hv
  rw [hstep]
  refine ⟨?cmd, ?ignored, ?_, ?_, ?_, ?_, ?_, ?_, ?_, ?mem⟩
  case cmd =>
    rintro rfl hz
    exact congrArg _ (if_pos hz)
  case ignored =>
    rintro rfl hz
    exact congrArg _ (if_neg hz)
  case mem =>
    rintro sp a rfl
    refine ⟨_, rfl, ?_, fun sp' a' hne => ?_, hostStore_mem_rest u sp a v⟩
    · rw [hostStore_mem_byteAt, if_pos rfl]
    · rw [hostStore_mem_byteAt, if_neg hne]
      rfl
  all_goals rintro rfl; rfl

/-- Settles O47: every command answers a next state, and both kinds of end, fault and completion, leave BUSY 0 and
DONE 1. -/
theorem noCommandLeavesItsSpaces : Obligations.NoCommandLeavesItsSpaces := by
  intro i s
  obtain ⟨t, ht⟩ := exec_next i s
  refine ⟨t, ht, ?_⟩
  obtain ⟨e, -, hs⟩ | ⟨-, hs⟩ := exec_next_status ht <;> rw [hs] <;> exact ⟨rfl, rfl⟩

/-- Settles O7: `cmd` and `ack` are writes to CMD and STATUS, every write is refused, and of the reads STATUS alone is
not. -/
theorem hostTouchesNothingButStatusWhileBusy : Obligations.HostTouchesNothingButStatusWhileBusy := by
  intro s rest hn hb
  have hb : ({ s.tookTurn with script := rest } : State).status.busy = true := hb
  refine ⟨fun t v hs => ?_, fun t ht hs => ?_, fun m hs => ?_, fun hs => ?_, fun hs => ?_⟩ <;>
    rw [step_host_line hn hs]
  · exact hostWrite_busy hb t v
  · exact hostRead_busy hb ht
  · exact hostWrite_busy hb .CMD _
  · exact hostWrite_busy hb .STATUS 0
  · exact hostRead_ok (mayRead_status _) rfl

/-- Settles O8: a target outside the spaces does not exist, and an idle host's access to it is refused for that. -/
theorem hostHasNoMoveOutsideTheSpaces : Obligations.HostHasNoMoveOutsideTheSpaces := by
  intro s t v rest hn hb ht
  have he : t.exists s.params = false := by
    obtain ⟨no, rfl, h⟩ | ⟨a, rfl, h⟩ | ⟨a, n, rfl | rfl, hc, h⟩ | ⟨a, n, rfl, hc, h⟩ := ht
    · exact Target.csr_missing h _
    · exact Target.mem_missing rfl h
    all_goals exact Target.mem_missing hc h
  have hb : ({ s.tookTurn with script := rest } : State).status.busy = false := hb
  refine ⟨fun hs => ?_, fun hs => ?_⟩ <;> rw [step_host_line hn hs]
  · exact hostRead_missing hb he
  · exact hostWrite_missing hb he v

end Sys2Proof.Proofs

/-! # Encoding and acceptance: the opcode map, the host's script lines, the frames of the commands and the invariant
(spec/30_encoding.md) -/

namespace Sys2Proof.Machine

open Safety

/-! ## The opcode map (R90 to R94) -/

theorem decode_encode (i : Instr) : decode (encode i) = .ok i := by cases i <;> rfl

/-- A byte selects a command exactly when it is the command's match value. -/
theorem decode_eq_ok_iff {w : Byte} {i : Instr} : decode w = .ok i ↔ w = encode i :=
  ⟨eq_encode_of_decode, fun h => h ▸ decode_encode i⟩

theorem instr_wf (i : Instr) : i.wf = true := by cases i <;> rfl

/-- The bytes that decode to a command, as numbers: the twelve values of R93. -/
theorem decodes_iff_toNat {w : Byte} : (∃ i, decode w = .ok i) ↔
    w.toNat = 0x10 ∨ w.toNat = 0x20 ∨ w.toNat = 0x22 ∨ w.toNat = 0x30 ∨ w.toNat = 0x31 ∨ w.toNat = 0x40 ∨
      w.toNat = 0x41 ∨ w.toNat = 0x50 ∨ w.toNat = 0x51 ∨ w.toNat = 0x60 ∨ w.toNat = 0x62 ∨ w.toNat = 0x63 := by
  simp only [decode_eq_ok_iff, ← BitVec.toNat_inj]
  constructor
  · rintro ⟨i, h⟩
    cases i <;> simp [encode] at h <;> simp [h]
  · rintro (h | h | h | h | h | h | h | h | h | h | h | h)
    exacts [⟨.kgen, h⟩, ⟨.dgstG, h⟩, ⟨.dgstP, h⟩, ⟨.rnd1E, h⟩, ⟨.rnd1D, h⟩, ⟨.rnd2E, h⟩, ⟨.rnd2D, h⟩, ⟨.rnd3E, h⟩,
      ⟨.rnd3D, h⟩, ⟨.init, h⟩, ⟨.enc, h⟩, ⟨.dec, h⟩]

theorem rejected_iff {w : Byte} : (∃ r, decode w = .error r) ↔ ¬ ∃ i, decode w = .ok i := by
  cases decode w <;> simp

/-! ## The engine's turn (R96) -/

theorem engineStep_decoded {s : State} {i : Instr} (hb : s.status.busy = true) (hd : decode s.cmdr = .ok i) :
    engineStep s = exec i s := by
  rw [engineStep, if_pos hb, hd]

theorem engineStep_idle {s : State} (hb : s.status.busy = false) : engineStep s = .next s := by
  simp [engineStep, hb]

/-- A placed word is the latched word once the engine's turn is taken (log 17). -/
theorem withFetchWord_tookTurn (s : State) (w : Byte) : (s.withFetchWord 8 w.toNat).tookTurn = s.latch w := by
  have hw : BitVec.ofNat 8 (w.toNat % 2 ^ 8) = w := by
    rw [Nat.mod_eq_of_lt w.isLt, BitVec.ofNat_toNat, BitVec.setWidth_eq]
  rw [State.withFetchWord, hw]
  rfl

/-! ## A host write to CMD (R95) -/

/-- A byte written to CMD while idle is a move. -/
theorem hostWrite_cmd_idle {s : State} (hb : s.status.busy = false) (w : Byte) :
    hostWrite .CMD w.toNat s = .next (writeCmd w s) := by
  have hholds : Target.CMD.holds w.toNat = true := decide_eq_true w.isLt
  rw [hostWrite_ok hb rfl hholds, hostStore, BitVec.ofNat_toNat, BitVec.setWidth_eq]

theorem writeCmd_accepted {s : State} (he : s.status.err = .none) (w : Byte) : writeCmd w s = s.latch w := if_pos he

theorem writeCmd_ignored {s : State} (he : s.status.err ≠ .none) (w : Byte) : writeCmd w s = s := if_neg he

/-! ## The frames of the commands (R92, R242, R243) -/

theorem scratchFrame_refl (i : Instr) (x : Scratch) : ScratchFrame i x x := by cases i <;> rfl

/-- A fault before the body is a round's result that rewrote nothing. -/
theorem RoundResult.enterFault (i : Instr) (s : State) (e : Err) :
    RoundResult i s (s.enterFault e) e (fun _ b => b) where
  rest := rfl
  bytes := fun _ _ => State.enterFault_byteAt s e _ _
  outside := fun _ _ => State.enterFault_byteAt s e _ _
  others := fun _ _ => by rw [State.enterFault_byteAt_fun]
  frame := scratchFrame_refl i _

/-- However a round command ends, it rewrote its window by some function and nothing more. -/
theorem round_result {i : Instr} {s t : State} (hi : IsRound i) (h : exec i s = .next t) :
    ∃ e F, RoundResult i s t e F := by
  obtain ⟨rfl, -⟩ | ⟨-, -, h⟩ | ⟨-, -, h⟩ := round_inv hi h
  · exact ⟨_, _, .enterFault i s _⟩
  · exact ⟨_, _, h⟩
  · exact ⟨_, _, h⟩

/-- What a command that builds the context leaves, its status apart: only its results and its scratch registers differ,
and in GAMMA only indices 0 to 254. -/
structure KeyFrame (i : Instr) (s t : State) : Prop where
  rest : t = { s with gamma := if i = .kgen ∨ i = .init then t.gamma else s.gamma
                      ghash := if i = .dgstG ∨ i = .init then t.ghash else s.ghash
                      pwhash := if i = .dgstP ∨ i = .init then t.pwhash else s.pwhash
                      scratch := t.scratch, status := t.status }
  frame : ScratchFrame i s.scratch t.scratch
  upd : Store.Updated (s.store .gamma) (t.store .gamma) (fun a => a < 255)

theorem KeyFrame.mem_other {i : Instr} {s t : State} (h : KeyFrame i s t) {sp : Space} (hsp : sp ≠ .gamma) :
    t.mem sp = s.mem sp := by
  rw [h.rest]
  cases sp with
  | gamma => exact absurd rfl hsp
  | pw1 | pw2 | data => rfl

theorem key_frame {i : Instr} {s t : State} (hi : ¬ IsRound i) (h : exec i s = .next t) : KeyFrame i s t := by
  obtain ⟨-, he⟩ | ⟨-, hr, -⟩ | ⟨-, hr, -⟩ | ⟨rfl, -, u, hu, he⟩ | ⟨rfl, r, he⟩ | ⟨rfl, -, r, he⟩ |
    ⟨rfl, -, u, hu, he⟩ := exec_cases i s
  case inr.inl => exact absurd hr hi
  case inr.inr.inl => cases i <;> simp [runsRound2, IsRound] at hr hi
  all_goals rw [he] at h; cases h
  · exact ⟨by simp only [State.enterFault, ite_self], scratchFrame_refl i _, .refl _ _⟩
  · exact ⟨by rw [hu.rest]; rfl, hu.frame, hu.upd⟩
  · exact ⟨by simp, rfl, .refl _ _⟩
  · exact ⟨by simp, rfl, .refl _ _⟩
  · exact ⟨by rw [hu.rest]; rfl, hu.frame, hu.upd⟩

/-- No command touches the host's own state or the turns. -/
theorem exec_next_host {i : Instr} {s t : State} (h : exec i s = .next t) :
    t.script = s.script ∧ t.hostLog = s.hostLog ∧ t.turns = s.turns := by
  by_cases hi : IsRound i
  · obtain ⟨e, F, hr⟩ := round_result hi h
    rw [hr.rest]; exact ⟨rfl, rfl, rfl⟩
  · rw [(key_frame hi h).rest]; exact ⟨rfl, rfl, rfl⟩

theorem keyvAfter_of_not_isRound {i : Instr} (hi : ¬ IsRound i) (k : Bool) : keyvAfter i k = decide (i = .init) := by
  cases i <;> simp [IsRound] at hi <;> rfl

/-- A command that builds the context sets KEYV if it is INIT and completes, clears it if it is another and completes,
and keeps it if it faults. -/
theorem key_status {i : Instr} {s t : State} (hi : ¬ IsRound i) (h : exec i s = .next t) :
    t.status = { busy := false, done := true, err := t.status.err
                 keyv := if t.status.err = .none then decide (i = .init) else s.status.keyv } := by
  obtain ⟨e, he, hs⟩ | ⟨-, hs⟩ := exec_next_status h <;> rw [hs]
  · rw [faulted, if_neg he]
  · rw [keyvAfter_of_not_isRound hi]; rfl

/-! ## Script lines step by step (R100) -/

theorem tookTurn_of_turns_nil {s : State} (ht : s.turns = []) : s.tookTurn = s := by
  rw [State.tookTurn, ht, List.tail_nil, ← ht]

/-- With no turns named the host moves while the engine is idle, and the engine while it is not (log 1). -/
theorem nextAgent_of_turns_nil {s : State} (ht : s.turns = []) :
    s.nextAgent = if s.status.busy then .engine else .host := by
  rw [State.nextAgent, ht]

/-- A legal write, first in the script of an idle engine with no turns named, is performed in one step. -/
theorem step_write {s : State} {t : Target} {v : Nat} {rest : List HostLine} (ht : s.turns = [])
    (hb : s.status.busy = false) (he : t.exists s.params = true) (hv : t.holds v = true)
    (hs : s.script = .wr t v :: rest) : step s = .next (hostStore t v { s with script := rest }) := by
  have hn : s.nextAgent = .host := by rw [nextAgent_of_turns_nil ht, hb]; rfl
  rw [step_host_line hn hs, tookTurn_of_turns_nil ht]
  exact hostWrite_ok hb he hv

/-- The moves of a load into DATA, one step for each byte: they put the bytes at the indices from a up and change
nothing else. -/
theorem run_loadLines_data {b : List Byte} {s : State} {a : Nat} {rest : List HostLine} (k : Nat) (ht : s.turns = [])
    (hb : s.status.busy = false) (ha : ∀ i, i < b.length → inside s.params.dataMax (a + i) = true)
    (hs : s.script = loadLines .data a b ++ rest) :
    ∃ t : State, core.run (b.length + k) s = core.run k t ∧ t = { s with script := rest, data := t.data } ∧
      (∀ i (h : i < b.length), t.byteAt .data (a + i) = b[i]) ∧
      ∀ c, ¬ (a ≤ c ∧ c < a + b.length) → t.byteAt .data c = s.byteAt .data c := by
  induction b generalizing s a with
  | nil =>
    refine ⟨s, by rw [List.length_nil, Nat.zero_add], ?_, fun i h => absurd h (Nat.not_lt_zero i), fun _ _ => rfl⟩
    rw [← show s.script = rest from hs]
  | cons x b ih =>
    let u : State := { s with script := loadLines .data (a + 1) b ++ rest, data := Memory.put s.data a x }
    have hstep : step s = .next u := by
      have hx : BitVec.ofNat 8 x.toNat = x := by rw [BitVec.ofNat_toNat, BitVec.setWidth_eq]
      rw [step_write (t := .mem .data a) ht hb (ha 0 (Nat.succ_pos _)) (decide_eq_true x.isLt) hs, hostStore, hx]
      rfl
    have hu : ∀ c, u.byteAt .data c = if c = a then x else s.byteAt .data c := Store.byteAt_set (s.store .data) a x
    obtain ⟨t, hrun, hrest, hbytes, hsame⟩ := ih (s := u) (a := a + 1) ht hb
      (fun i hi => by rw [Nat.add_assoc, Nat.add_comm 1 i]; exact ha (i + 1) (Nat.succ_lt_succ hi)) rfl
    refine ⟨t, ?_, hrest, fun i hi => ?_, fun c hc => ?_⟩
    · rw [List.length_cons, Nat.add_right_comm, run_succ hstep, hrun]
    · cases i with
      | zero => rw [hsame _ (by omega), hu, if_pos (Nat.add_zero a)]; rfl
      | succ i =>
        rw [← Nat.add_assoc, Nat.add_right_comm]
        exact hbytes i (Nat.lt_of_succ_lt_succ hi)
    · rw [List.length_cons] at hc
      rw [hsame c (by omega), hu, if_neg (by omega)]

/-! ## The invariant along a step (R96, R243, R33, R34) -/

/-- The clauses of the invariant about STATUS alone: DONE and ERR are 0 while BUSY = 1, and a fault code stands only
with DONE = 1. -/
def Status.Consistent (st : Status) : Prop :=
  (st.busy = true → st.done = false ∧ st.err = .none) ∧ (st.err ≠ .none → st.done = true)

theorem inv_iff {s : State} : Inv s ↔
    s.params.wf = true ∧ MemoriesOk s ∧ s.status.Consistent ∧ (s.status.keyv = true → ContextOk s) :=
  ⟨fun ⟨hp, hm, hb, he, hc⟩ => ⟨hp, hm, ⟨hb, he⟩, hc⟩, fun ⟨hp, hm, ⟨hb, he⟩, hc⟩ => ⟨hp, hm, hb, he, hc⟩⟩

theorem Status.consistent_faulted (e : Err) (k : Bool) : (faulted e k).Consistent :=
  ⟨fun hb => (nomatch hb), fun _ => rfl⟩

theorem Status.consistent_completed (k : Bool) : (completed k).Consistent := Status.consistent_faulted .none k

/-- Clearing KEYV is not seen by BUSY, DONE and ERR; a CMD write is accepted only with ERR = 0, which it keeps; the
acknowledge clears DONE and ERR together. -/
theorem Target.statusAfter_consistent {st : Status} (h : st.Consistent) (t : Target) :
    (t.statusAfter st).Consistent := by
  unfold Target.statusAfter
  split
  case h_1 =>
    split
    case isTrue he => exact ⟨fun _ => ⟨rfl, he⟩, fun hne => absurd he hne⟩
    case isFalse => exact h
  case h_2 => exact ⟨fun _ => ⟨rfl, rfl⟩, fun hne => absurd rfl hne⟩
  case h_7 => split <;> exact h
  all_goals exact h

theorem HostLine.statusAfter_consistent {st : Status} (h : st.Consistent) (l : HostLine) :
    (l.statusAfter st).Consistent := by
  cases l with
  | wr t _ => exact t.statusAfter_consistent h
  | cmd _ => exact Target.CMD.statusAfter_consistent h
  | ack => exact Target.STATUS.statusAfter_consistent h
  | rd _ | wait => exact h
  | reset => exact ⟨fun hb => (nomatch hb), fun hne => absurd rfl hne⟩

/-- A valid context stays valid where GAMMA, password2, its length and the two digests stay. -/
theorem contextOk_congr {s t : State} (h : ContextOk s) (hg : t.byteAt .gamma = s.byteAt .gamma)
    (hp : t.byteAt .pw2 = s.byteAt .pw2) (hl : t.pw2len = s.pw2len) (hgh : t.ghash = s.ghash)
    (hpw : t.pwhash = s.pwhash) : ContextOk t := by
  unfold ContextOk
  rw [hg, hp, hl, hgh, hpw]
  exact h

/-- Writes inside one space keep every memory in form. -/
theorem memoriesOk_of_updated {s t : State} {sp : Space} {touched : Nat → Prop} (hs : MemoriesOk s)
    (hp : t.params = s.params) (hu : Store.Updated (s.store sp) (t.store sp) touched)
    (ho : ∀ sp', sp' ≠ sp → t.mem sp' = s.mem sp') : MemoriesOk t := by
  intro sp'
  rw [hp]
  by_cases h : sp' = sp
  · subst h; exact ⟨hu.wf (hs sp').1, hu.within (hs sp').2⟩
  · rw [ho sp' h]; exact hs sp'

theorem DataPass.mem_other {s t : State} {off k : Nat} {F : Nat → Byte → Byte} (h : DataPass s off k F t) {sp : Space}
    (hsp : sp ≠ .data) : t.mem sp = s.mem sp := by
  rw [h.rest]
  cases sp with
  | data => exact absurd rfl hsp
  | pw1 | pw2 | gamma => rfl

theorem DataPass.memoriesOk {s t : State} {off k : Nat} {F : Nat → Byte → Byte} (h : DataPass s off k F t)
    (hs : MemoriesOk s) : MemoriesOk t :=
  memoriesOk_of_updated hs (by rw [h.rest]) h.upd fun _ => h.mem_other

theorem KeyFrame.memoriesOk {i : Instr} {s t : State} (h : KeyFrame i s t) (hs : MemoriesOk s) : MemoriesOk t :=
  memoriesOk_of_updated hs (by rw [h.rest]) h.upd fun _ => h.mem_other

/-- A command keeps every memory in form: a round command writes its window of DATA, a key command GAMMA. -/
theorem exec_next_memoriesOk {i : Instr} {s t : State} (hs : MemoriesOk s) (h : exec i s = .next t) :
    MemoriesOk t := by
  obtain ⟨-, he⟩ | ⟨-, -, -, u, ⟨hu, -⟩, he⟩ | ⟨-, -, -, u, ⟨hu, -⟩, he⟩ | hkey := exec_cases i s
  · rw [he] at h; cases h; exact hs
  · rw [he] at h; cases h; exact hu.memoriesOk hs
  · rw [he] at h; cases h; exact hu.memoriesOk hs
  · have hi : ¬ IsRound i := by
      obtain ⟨rfl, -⟩ | ⟨rfl, -⟩ | ⟨rfl, -⟩ | ⟨rfl, -⟩ := hkey <;> simp [IsRound]
    exact (key_frame hi h).memoriesOk hs

/-- A pass over DATA leaves the context and KEYV as they were. -/
theorem DataPass.contextOk {s t : State} {off k : Nat} {F : Nat → Byte → Byte} (h : DataPass s off k F t)
    (hs : s.status.keyv = true → ContextOk s) (hk : t.status.keyv = true) : ContextOk t := by
  have hst : t.status = s.status := by rw [h.rest]
  exact contextOk_congr (hs (hst ▸ hk)) (h.byteAt_other (by decide)) (h.byteAt_other (by decide)) (by rw [h.rest])
    (by rw [h.rest]) (by rw [h.rest])

/-- INIT builds a valid context (R34, R211). -/
theorem Initialised.contextOk {s t : State} (h : Initialised s t) : ContextOk t := by
  have hpw2 : t.byteAt .pw2 = s.byteAt .pw2 := by rw [h.rest]; rfl
  have hlen : t.pw2len = s.pw2len := by rw [h.rest]
  exact ⟨h.ghash, by rw [hpw2, hlen]; exact h.pwhash, s.byteAt .pw1, s.pw1len, h.bytes⟩

/-- A context is valid after a command that leaves KEYV = 1: INIT built it, or the command left it alone. -/
theorem exec_next_contextOk {i : Instr} {s t : State} (hs : s.status.keyv = true → ContextOk s)
    (h : exec i s = .next t) : t.status.keyv = true → ContextOk t := by
  obtain ⟨-, he⟩ | ⟨-, -, -, u, ⟨hu, -⟩, he⟩ | ⟨-, -, -, u, ⟨hu, -⟩, he⟩ | ⟨-, -, u, -, he⟩ | ⟨-, r, he⟩ |
    ⟨-, -, r, he⟩ | ⟨-, -, u, hu, he⟩ := exec_cases i s <;> rw [he] at h <;> cases h
  · exact hs
  · exact hu.contextOk hs
  · exact hu.contextOk hs
  · exact fun hk => (nomatch hk)
  · exact fun hk => (nomatch hk)
  · exact fun hk => (nomatch hk)
  · exact fun _ => hu.contextOk

theorem exec_next_inv {i : Instr} {s t : State} (hs : Inv s) (h : exec i s = .next t) : Inv t := by
  obtain ⟨hp, hm, -, hc⟩ := inv_iff.mp hs
  have hst : t.status.Consistent := by
    obtain ⟨e, -, hs⟩ | ⟨-, hs⟩ := exec_next_status h <;> rw [hs]
    · exact Status.consistent_faulted e _
    · exact Status.consistent_completed _
  exact inv_iff.mpr ⟨(exec_next_params h).symm ▸ hp, exec_next_memoriesOk hm h, hst, exec_next_contextOk hc h⟩

theorem engineStep_next_inv {s t : State} (hs : Inv s) (h : engineStep s = .next t) : Inv t := by
  unfold engineStep at h
  split at h
  case isFalse => cases h; exact hs
  case isTrue =>
    split at h
    case h_1 => exact exec_next_inv hs h
    case h_2 =>
      cases h
      obtain ⟨hp, hm, -, hc⟩ := inv_iff.mp hs
      exact inv_iff.mpr ⟨hp, hm, Status.consistent_faulted .illcmd s.status.keyv, hc⟩

theorem hostStore_memoriesOk {t : Target} {v : Nat} {s : State} (hs : MemoriesOk s) (he : t.exists s.params = true) :
    MemoriesOk (hostStore t v s) := by
  unfold hostStore
  split
  case h_1 => unfold writeCmd; split <;> exact hs
  case h_10 sp a =>
    have hput := memoriesOk_setMem hs (BitVec.ofNat 8 v) he
    dsimp only
    split <;> exact hput
  all_goals exact hs

/-- A context is valid after a host write that leaves KEYV = 1: what it wrote is not of the context (R33). -/
theorem hostStore_contextOk {t : Target} {v : Nat} {s : State} (hs : s.status.keyv = true → ContextOk s) :
    (hostStore t v s).status.keyv = true → ContextOk (hostStore t v s) := by
  unfold hostStore
  split
  case h_1 => unfold writeCmd; split <;> exact hs
  case h_4 | h_5 | h_8 => intro hk; cases hk
  case h_10 sp a =>
    cases sp with
    | pw1 | data => exact hs
    | pw2 | gamma => intro hk; cases hk
  all_goals exact hs

theorem hostWrite_next_inv {t : Target} {v : Nat} {s u : State} (hs : Inv s) (h : hostWrite t v s = .next u) :
    Inv u := by
  obtain ⟨-, he, -, rfl⟩ := hostWrite_next h
  obtain ⟨hp, hm, hst, hc⟩ := inv_iff.mp hs
  exact inv_iff.mpr ⟨(hostStore_params t v s).symm ▸ hp, hostStore_memoriesOk hm he,
    (hostStore_status t v s).symm ▸ t.statusAfter_consistent hst, hostStore_contextOk hc⟩

/-- The invariant says nothing of the host's own state and of the turns. -/
theorem inv_of_host {s : State} (hs : Inv s) (script : List HostLine) (log : List (Target × Nat))
    (turns : List Agent) : Inv { s with script := script, hostLog := log, turns := turns } := hs

theorem hostRead_next_inv {t : Target} {s u : State} (hs : Inv s) (h : hostRead t s = .next u) : Inv u := by
  obtain ⟨-, -, rfl⟩ := hostRead_next h
  exact inv_of_host hs _ _ _

theorem hostLine_next_inv {l : HostLine} {s t : State} (hs : Inv s) (h : hostLine l s = .next t) : Inv t := by
  cases l with
  | wr _ _ | cmd _ | ack => exact hostWrite_next_inv hs h
  | rd _ => exact hostRead_next_inv hs h
  | reset => cases h; exact inv_of_host (inv_afterReset hs.1 _) _ _ _
  | wait =>
    refine hostRead_next_inv ?_ h
    split
    · exact inv_of_host hs _ _ _
    · exact hs

theorem hostStep_next_inv {s t : State} (hs : Inv s) (h : hostStep s = .next t) : Inv t := by
  unfold hostStep at h
  split at h
  · cases h; exact hs
  · exact hostLine_next_inv (inv_of_host hs _ _ _) h

end Sys2Proof.Machine

namespace Sys2Proof.Proofs

open Sys2Proof.Machine Sys2Proof.Safety

/-- Settles O9: the fields of each match value name a command, and its row of the decoder is that command. -/
theorem encodedCommandsDecode : Obligations.EncodedCommandsDecode := fun i => ⟨instr_wf i, decode_encode i⟩

/-- Settles O10: a byte decodes to a command exactly when it is the command's match value, and the twelve pairs are those
of the encoder. -/
theorem opcodeMapSelectsTwelveCommands : Obligations.OpcodeMapSelectsTwelveCommands := by
  intro w i
  rw [decode_eq_ok_iff]
  cases i <;> simp [encode]

/-- Settles O11: the twelve match values are the numbers below 256 whose three fields are legal. -/
theorem formatCFieldsNameTheCommands : Obligations.FormatCFieldsNameTheCommands := by
  intro w unit fn d
  have hw : w.toNat < 256 := w.isLt
  rw [decodes_iff_toNat]
  omega

/-- Settles O12: a byte is rejected when it is none of the twelve match values, and the list is the numbers between them. -/
theorem everyByteIsOneCommandOrIllegal : Obligations.EveryByteIsOneCommandOrIllegal := by
  refine ⟨fun w => ?_, decode_encode .kgen, decode_encode .dgstG, decode_encode .dgstP, decode_encode .rnd1E,
    decode_encode .rnd1D, decode_encode .rnd2E, decode_encode .rnd2D, decode_encode .rnd3E, decode_encode .rnd3D,
    decode_encode .init, decode_encode .enc, decode_encode .dec⟩
  have hw : w.toNat < 256 := w.isLt
  rw [rejected_iff, decodes_iff_toNat]
  omega

/-- Settles O14: the engine's turn with BUSY = 1 is `exec` of the decoded word. -/
theorem stepRunsTheDecodedCommand : Obligations.StepRunsTheDecodedCommand := by
  intro s i hn hb hd
  rw [step_engine hn]
  exact engineStep_decoded hb hd

/-- Settles O15: the placed word gives the engine the turn, and with the turn taken the state is that of an accepted CMD
write. -/
theorem placedWordRunsNext : Obligations.PlacedWordRunsNext := by
  intro s i
  rw [step_engine rfl, withFetchWord_tookTurn]
  exact engineStep_decoded rfl (decode_encode i)

/-- Settles O16: an idle engine's step answers the state it got. -/
theorem idleEngineDoesNothing : Obligations.IdleEngineDoesNothing := by
  intro s hn hb
  rw [step_engine hn]
  exact engineStep_idle hb

/-- Settles O17: the poll is a read of STATUS, legal at any time, for either value of BUSY. -/
theorem waitPollsUntilIdle : Obligations.WaitPollsUntilIdle := by
  intro s rest hn hs
  rw [step_host_line hn hs, hostLine, hostRead_ok (mayRead_status _) rfl]
  cases hb : s.status.busy <;> simp [hb, hostValue]

/-- Settles O13: both lines write the byte w to CMD, and the write has the three branches of R95. -/
theorem cmdWritesAreAcceptedIgnoredOrRefused : Obligations.CmdWritesAreAcceptedIgnoredOrRefused := by
  intro s w rest hn hs
  have hstep : step s = hostWrite .CMD w.toNat { s.tookTurn with script := rest } := by
    obtain hs | ⟨m, rfl, hs⟩ := hs <;> rw [step_host_line hn hs] <;> rfl
  have hu : ({ s.tookTurn with script := rest } : State).status = s.status := rfl
  rw [hstep, ← hu]
  refine ⟨fun hb => hostWrite_busy hb _ _, fun hb he => ?_, fun hb he => ?_⟩ <;> rw [hostWrite_cmd_idle hb]
  · rw [writeCmd_ignored he]
  · rw [writeCmd_accepted he]
    rfl

/-- Settles O43: completed, overrun or stopped by a check, the command rewrote its window by some function and no more. -/
theorem roundCommandsChangeOnlyTheirWindow : Obligations.RoundCommandsChangeOnlyTheirWindow := by
  intro i s t hi h
  obtain ⟨e, F, hr⟩ := round_result hi h
  refine ⟨?_, hr.frame, hr.outside, fun sp a hsp => congrFun (hr.others sp hsp) a⟩
  rw [hr.rest]; rfl

/-- Settles O44: the frame of the command with the STATUS of its end, GAMMA being written below 255 only. -/
theorem keyCommandsChangeOnlyTheirResults : Obligations.KeyCommandsChangeOnlyTheirResults := by
  intro i s t hi h
  have hk := key_frame hi h
  have hdraws : t.draws = s.draws := by rw [hk.rest]
  refine ⟨?_, hk.frame, fun a ha => hk.upd.same a (Nat.not_lt.mpr ha), fun h1 h2 a => ?_,
    fun sp a hsp => State.byteAt_congr (hk.mem_other hsp) hdraws a⟩
  · rw [← key_status hi h]
    exact hk.rest
  · have hg : t.gamma = s.gamma := by rw [hk.rest]; simp [h1, h2]
    exact State.byteAt_congr (sp := .gamma) hg hdraws a

/-- Settles O18: one step for each byte of the load, then the write of LEN, which keeps DATA. -/
theorem loadDataLineFillsTheBuffer : Obligations.LoadDataLineFillsTheBuffer := by
  intro s b ht hb hfit hs
  obtain ⟨u, hrun, hrest, hbytes, hsame⟩ := run_loadLines_data 1 ht hb
    (fun i hi => by rw [Nat.zero_add]; exact inside_of_fits ((fits_iff _ _).mp hfit) hi) hs
  have hut : u.turns = [] := by rw [hrest]; exact ht
  have hub : u.status.busy = false := by rw [hrest]; exact hb
  have hus : u.script = [.wr .LEN b.length] := by rw [hrest]
  have hstep : step u = .next { u with script := [], len := b.length } := step_write hut hub rfl rfl hus
  refine ⟨{ u with script := [], len := b.length }, ?_, rfl, rfl, ?_, fun i hi => ?_, fun a ha => hsame a (by omega)⟩
  · rw [hrun, run_succ hstep]; rfl
  · rw [hrest]
  · rw [← hbytes i hi, Nat.zero_add]; rfl

/-- Settles O19: the accepted CMD write (O13), the engine's turn (O14) and the poll (O17) that finds the command ended. -/
theorem runLineEndsInThreeSteps : Obligations.RunLineEndsInThreeSteps := by
  intro s m rest ht hb he hs
  have hn : s.nextAgent = .host := by rw [nextAgent_of_turns_nil ht, hb]; rfl
  let v : State := State.latch { s with script := .wait :: rest } (encode m)
  have hcmd : step s = .next v := by
    obtain ⟨-, -, haccept⟩ := cmdWritesAreAcceptedIgnoredOrRefused s (encode m) (.wait :: rest) hn (.inr ⟨m, rfl, hs⟩)
    rw [haccept hb he, tookTurn_of_turns_nil ht]
    rfl
  obtain ⟨u, hu⟩ := exec_next m v
  have hrun : step v = .next u := by
    have hnv : v.nextAgent = .engine := nextAgent_of_turns_nil (s := v) ht
    rw [stepRunsTheDecodedCommand v m hnv rfl (decode_encode m), tookTurn_of_turns_nil (s := v) ht, hu]
  obtain ⟨hscript, hlog, hturns⟩ := exec_next_host hu
  have hut : u.turns = [] := hturns.trans ht
  have hub : u.status.busy = false := by
    obtain ⟨u', hu', hb', -⟩ := noCommandLeavesItsSpaces m v
    rw [hu] at hu'; cases hu'
    exact hb'
  have hwait : step u = .next { u with script := rest, hostLog := (.STATUS, u.status.byte.toNat) :: s.hostLog } := by
    have hnu : u.nextAgent = .host := by rw [nextAgent_of_turns_nil hut, hub]; rfl
    rw [waitPollsUntilIdle u rest hnu hscript, tookTurn_of_turns_nil hut, hub, hlog]
    rfl
  refine ⟨u, hu, hub, ?_⟩
  rw [run_succ hcmd, run_succ hrun, run_succ hwait]
  rfl

/-- Settles O58: the invariant says nothing of the turns, and each agent's step keeps it. -/
theorem stepKeepsTheInvariant : Obligations.StepKeepsTheInvariant := by
  intro s t hs h
  have htook : Inv s.tookTurn := inv_of_host hs _ _ _
  cases hn : s.nextAgent with
  | engine => rw [step_engine hn] at h; exact engineStep_next_inv htook h
  | host => rw [step_host hn] at h; exact hostStep_next_inv htook h

end Sys2Proof.Proofs

/-! # The keystream generator (spec/40_keystream.md) -/

namespace Sys2Proof.Machine

open Safety

/-! ## KGEN from its operands to GAMMA (R112, R118) -/

/-- KGEN needs a legal PW1LEN only; it completes and leaves `Gamma(password1)`. -/
theorem exec_kgen_completes {s : State} (hfit : Fits s.params.pwMax s.pw1len) :
    ∃ t, exec .kgen s = .next t ∧ t.status = completed false ∧
      ∀ m, m < 255 → t.byteAt .gamma m = gammaOf (padded (s.byteAt .pw1) s.pw1len) m := by
  obtain ⟨_, he, u, hu, rfl⟩ := exec_kgen_ok (checked_kgen hfit)
  refine ⟨_, he, rfl, fun m hm => ?_⟩
  rw [State.complete_byteAt, State.setKeyv_byteAt, hu.bytes m hm]

/-- A KGEN that ended without a fault found PW1LEN legal. -/
theorem fits_of_exec_kgen {s t : State} (h : exec .kgen s = .next t) (hok : t.status.err = .none) :
    Fits s.params.pwMax s.pw1len := by
  obtain ⟨e, he, hs⟩ | ⟨hc, -⟩ := exec_next_status h
  · rw [hs] at hok; exact absurd hok he
  · exact (fits_iff _ _).mpr (hc.pw1 rfl)

/-- What any completed KGEN leaves in GAMMA. -/
theorem exec_kgen_gamma {s t : State} (h : exec .kgen s = .next t) (hok : t.status.err = .none) {m : Nat} (hm : m < 255) :
    t.byteAt .gamma m = gammaOf (padded (s.byteAt .pw1) s.pw1len) m := by
  obtain ⟨u, hu, -, hbytes⟩ := exec_kgen_completes (fits_of_exec_kgen h hok)
  rw [h] at hu; cases hu
  exact hbytes m hm

/-! ## The tail, long and empty passwords (R114, R116, R117) -/

/-- The recurrence writes the indices below 125 only. -/
theorem gammaOf_tail (pad : Nat → Byte) {m : Nat} (hm : 125 ≤ m) : gammaOf pad m = pad m :=
  if_neg (Nat.not_lt.mpr hm)

theorem padded_of_lt {n m : Nat} (pw : Nat → Byte) (hm : m < n) : padded pw n m = pw m := if_pos hm

/-- An empty password is padded to zeros, whatever the memory holds. -/
theorem padded_zero (pw : Nat → Byte) : padded pw 0 = fun _ => 0x00 := rfl

theorem fits_zero (c : Capacity) : Fits c 0 := by
  cases c with
  | bounded n => exact Nat.zero_le n
  | unbounded => trivial

end Sys2Proof.Machine

namespace Sys2Proof.Proofs

open Sys2Proof.Machine Sys2Proof.Safety

/-- Settles O20: the in-place recurrence reads only bytes it has not yet written, so it follows the pure one. -/
theorem kgenLeavesGammaOfPassword1 : Obligations.KgenLeavesGammaOfPassword1 := fun _ => exec_kgen_completes

/-- Settles O21: from index 125 on `Gamma` is the padded password itself. -/
theorem kgenRetainsTheTail : Obligations.KgenRetainsTheTail := by
  intro s t h hok m hlow hhigh
  rw [exec_kgen_gamma h hok (by omega), gammaOf_tail _ hlow]
  rfl

/-- Settles O22: `Gamma` depends on the padded password below 255 only, and there neither password is padded. -/
theorem kgenTruncatesLongPasswords : Obligations.KgenTruncatesLongPasswords := by
  intro s s' t t' hlen hlen' hsame h h' hok hok' m hm
  have hpad : ∀ a, a < 255 → padded (s.byteAt .pw1) s.pw1len a = padded (s'.byteAt .pw1) s'.pw1len a := by
    intro a ha
    rw [padded_of_lt _ (by omega), padded_of_lt _ (by omega), hsame a ha]
  rw [exec_kgen_gamma h hok hm, exec_kgen_gamma h' hok' hm, gammaOf_congr hpad hm]

/-- Settles O23: KGEN leaves `Gamma` of the zero sequence, whose first four bytes are computed. -/
theorem emptyPassword1Generates : Obligations.EmptyPassword1Generates := by
  intro s hlen
  obtain ⟨t, h, hst, hbytes⟩ := exec_kgen_completes (s := s) (by rw [hlen]; exact fits_zero _)
  rw [hlen, padded_zero] at hbytes
  refine ⟨t, h, hst, ?_, ?_, ?_, ?_, fun m hlow hhigh => ?_⟩
  · rw [hbytes 0 (by omega)]; decide
  · rw [hbytes 1 (by omega)]; decide
  · rw [hbytes 2 (by omega)]; decide
  · rw [hbytes 3 (by omega)]; decide
  · rw [hbytes m (by omega), gammaOf_tail _ hlow]

end Sys2Proof.Proofs

/-! # The digests (spec/41_digest.md) -/

namespace Sys2Proof.Machine

open Safety

/-! ## What a completed DGST.P leaves (R133, R134) -/

/-- A DGST.P that ended without a fault has left the digest of password2. -/
theorem exec_dgstP_pwhash {s t : State} (h : exec .dgstP s = .next t) (hok : t.status.err = .none) :
    t.pwhash = passwordDigest (padded (s.byteAt .pw2) s.pw2len) := by
  obtain ⟨r, hr⟩ := exec_dgstP_ok (checked_of_ok h hok)
  rw [h] at hr; cases hr
  rfl

/-! ## The digest of zeros (R134) -/

/-- Over zeros the two accumulators are back at zero after every six bytes. -/
theorem passwordDigestRegs_zeros_six_mul (n : Nat) : passwordDigestRegs (fun _ => 0x00) (6 * n) = (0x00, 0x00) := by
  induction n with
  | zero => rfl
  | succ n ih =>
    rw [Nat.mul_succ]
    simp only [passwordDigestRegs, ih]
    decide

/-- Three zero bytes take the accumulators from zero to 0xFE. -/
theorem passwordDigestRegs_zeros_six_mul_add_three (n : Nat) :
    passwordDigestRegs (fun _ => 0x00) (6 * n + 3) = (0xFE, 0xFE) := by
  simp only [passwordDigestRegs, passwordDigestRegs_zeros_six_mul n]
  decide

/-- The 255 bytes are 42 rounds of six and three bytes more. -/
theorem passwordDigest_zeros : passwordDigest (fun _ => 0x00) = 0xFE :=
  congrArg Prod.fst (passwordDigestRegs_zeros_six_mul_add_three 42)

end Sys2Proof.Machine

namespace Sys2Proof.Proofs

open Sys2Proof.Machine Sys2Proof.Safety

/-- Settles O24: DGST.G has no check, and its body writes GHASH and the unit's two accumulators. -/
theorem dgstGWritesTheGammaDigest : Obligations.DgstGWritesTheGammaDigest := by
  intro s
  obtain ⟨r, h⟩ := exec_dgstG_ok s
  exact ⟨r.hash, r.state, h⟩

/-- Settles O25: a legal PW2LEN is the one check, and the body writes PWHASH and the unit's two accumulators. -/
theorem dgstPWritesThePasswordDigest : Obligations.DgstPWritesThePasswordDigest := by
  intro s hfit
  obtain ⟨r, h⟩ := exec_dgstP_ok (checked_dgstP hfit)
  exact ⟨r.hash, r.state, h⟩

/-- Settles O26: the padded empty password is the zero sequence, whose digest is 0xFE. -/
theorem emptyPassword2DigestIsFE : Obligations.EmptyPassword2DigestIsFE := by
  intro s hlen
  obtain ⟨hash, state, h⟩ := dgstPWritesThePasswordDigest s (by rw [hlen]; exact fits_zero _)
  rw [hlen, padded_zero, passwordDigest_zeros] at h
  exact ⟨_, h, rfl, rfl⟩

/-- Settles O27: the digest depends on the padded password below 255 only, and there neither password is padded. -/
theorem dgstPIgnoresBytesFrom255 : Obligations.DgstPIgnoresBytesFrom255 := by
  intro s s' t t' hlen hlen' hsame h h' hok hok'
  have hpad : ∀ m, m < 255 → padded (s.byteAt .pw2) s.pw2len m = padded (s'.byteAt .pw2) s'.pw2len m := by
    intro m hm
    rw [padded_of_lt _ (by omega), padded_of_lt _ (by omega), hsame m hm]
  rw [exec_dgstP_pwhash h hok, exec_dgstP_pwhash h' hok', passwordDigest_congr hpad]

end Sys2Proof.Proofs

/-! # Round 1 (spec/42_round1.md) -/

namespace Sys2Proof.Machine

open Safety

/-! ## A completed round command (R92, R242) -/

/-- A round command completes: its checks pass and the cursor of Round 2, where it runs, does not overrun. -/
structure RoundReady (i : Instr) (s : State) : Prop where
  checked : Checked i s
  isRound : IsRound i
  noOverrun : runsRound2 i = true → ¬ overruns (s.byteAt .gamma) (windowLen i s)

theorem RoundReady.exec_next {i : Instr} {s : State} (h : RoundReady i s) :
    ∃ t, exec i s = .next t ∧ RoundResult i s t .none (stageOut s i) := round_ok h.checked h.isRound h.noOverrun

/-- A round command that ended without a fault ran its stages over the whole window. -/
theorem round_result_of_ok {i : Instr} {s t : State} (hi : IsRound i) (h : exec i s = .next t)
    (hok : t.status.err = .none) : RoundResult i s t .none (stageOut s i) := by
  obtain ⟨rfl, hp⟩ | ⟨-, -, hr⟩ | ⟨-, -, hr⟩ := round_inv hi h
  · exact absurd hok hp
  · exact hr
  · rw [hr.rest] at hok; cases hok

theorem RoundResult.status {i : Instr} {s t : State} {e : Err} {F : Nat → Byte → Byte} (h : RoundResult i s t e F) :
    t.status = faulted e s.status.keyv := by rw [h.rest]

theorem windowOff_of_ne_dec {i : Instr} (hi : i ≠ .dec) : windowOff i = 0 := by
  unfold windowOff
  split
  · exact absurd rfl hi
  · rfl

theorem windowLen_of_ne_dec {i : Instr} (hi : i ≠ .dec) (s : State) : windowLen i s = s.len := by
  unfold windowLen
  split
  · exact absurd rfl hi
  · rfl

/-- All of DATA after a round command other than DEC, whose window is the first LEN bytes. -/
theorem RoundResult.data_eq {i : Instr} {s t : State} {e : Err} {F : Nat → Byte → Byte} (h : RoundResult i s t e F)
    (hi : i ≠ .dec) (a : Nat) :
    t.byteAt .data a = if a < s.len then F a (s.byteAt .data a) else s.byteAt .data a := by
  have hbytes := h.bytes a
  have houtside := h.outside a
  simp only [windowOff_of_ne_dec hi, windowLen_of_ne_dec hi, Nat.zero_add, Nat.zero_le, true_and] at hbytes houtside
  split
  case isTrue ha => exact hbytes ha
  case isFalse ha => exact houtside ha

/-- Completion with KEYV kept, and the window's bytes, for a round command other than DEC. -/
theorem RoundReady.completes {i : Instr} {s : State} (h : RoundReady i s) (hi : i ≠ .dec) :
    ∃ t, exec i s = .next t ∧ t.status = completed s.status.keyv ∧
      ∀ a, a < s.len → t.byteAt .data a = stageOut s i a (s.byteAt .data a) := by
  obtain ⟨t, ht, hr⟩ := h.exec_next
  exact ⟨t, ht, hr.status, fun a ha => by rw [hr.data_eq hi, if_pos ha]⟩

/-! ## A round command keeps the operands of the next one (R92) -/

theorem stageOut_latch (s : State) (w : Byte) (j : Instr) : stageOut (s.latch w) j = stageOut s j := by
  simp [stageOut]

theorem RoundResult.stageOut_eq {i : Instr} {s t : State} {e : Err} {F : Nat → Byte → Byte} (h : RoundResult i s t e F)
    {j : Instr} (hj : j ≠ .dec) : stageOut t j = stageOut s j := by
  have hgamma := h.others .gamma (by decide)
  have hpw2 := h.others .pw2 (by decide)
  cases j with
  | dec => exact absurd rfl hj
  | _ => simp only [stageOut, hgamma, hpw2] <;> rw [h.rest]

/-- The checks read the parameters, the three lengths and KEYV (R246). -/
theorem Checked.congr {i : Instr} {s t : State} (h : Checked i s) (hp : t.params = s.params)
    (h1 : t.pw1len = s.pw1len) (h2 : t.pw2len = s.pw2len) (hl : t.len = s.len)
    (hk : t.status.keyv = s.status.keyv) : Checked i t := by
  obtain ⟨hpw1, hpw2, hlen, hkey, hiv⟩ := h
  constructor <;> simpa only [hp, h1, h2, hl, hk]

theorem RoundReady.latch {i : Instr} {s : State} (h : RoundReady i s) (w : Byte) : RoundReady i (s.latch w) :=
  ⟨h.checked.congr rfl rfl rfl rfl rfl, h.isRound, by rw [State.latch_byteAt_fun]; exact h.noOverrun⟩

theorem RoundResult.roundReady {i : Instr} {s t : State} {e : Err} {F : Nat → Byte → Byte} (h : RoundResult i s t e F)
    {j : Instr} (hj : RoundReady j s) : RoundReady j t := by
  have hlen : windowLen j t = windowLen j s := by rw [h.rest]; rfl
  refine ⟨?_, hj.isRound, by rw [hlen, h.others .gamma (by decide)]; exact hj.noOverrun⟩
  rw [h.rest]
  exact hj.checked.congr rfl rfl rfl rfl rfl

/-! ## Runs of round commands -/

/-- Round commands that each complete on `s` complete one after the other. -/
theorem exists_runsTo_of_roundReady {is : List Instr} : ∀ {s : State}, (∀ i ∈ is, RoundReady i s) →
    ∃ t, RunsTo is s t := by
  induction is with
  | nil => exact fun _ => ⟨_, rfl⟩
  | cons i rest ih =>
    intro s hready
    obtain ⟨u, hu, hr⟩ := ((hready i List.mem_cons_self).latch (encode i)).exec_next
    obtain ⟨t, ht⟩ := ih (s := u) fun j hj =>
      hr.roundReady ((hready j (List.mem_cons_of_mem _ hj)).latch (encode i))
    exact ⟨t, u, hu, congrArg Status.err hr.status, ht⟩

/-- The first command of a completed run, seen from the state before the CMD write. -/
theorem runsTo_cons_round {i : Instr} {rest : List Instr} {s t : State} (hi : IsRound i)
    (h : RunsTo (i :: rest) s t) :
    ∃ u, RoundResult i (s.latch (encode i)) u .none (stageOut s i) ∧ RunsTo rest u t := by
  obtain ⟨u, hu, hok, ht⟩ := h
  exact ⟨u, by rw [← stageOut_latch s (encode i)]; exact round_result_of_ok hi hu hok, ht⟩

/-- Two commands over the same window, the second undoing the first at each position, leave DATA as it was. -/
theorem runsTo_pair_undo {i j : Instr} {s t : State} (hi : IsRound i) (hj : IsRound j) (hid : i ≠ .dec) (hjd : j ≠ .dec)
    (hundo : ∀ a b, stageOut s j a (stageOut s i a b) = b) (h : RunsTo [i, j] s t) (a : Nat) :
    t.byteAt .data a = s.byteAt .data a := by
  obtain ⟨u, hu, h⟩ := runsTo_cons_round hi h
  obtain ⟨v, hv, rfl⟩ := runsTo_cons_round hj h
  have hsame : stageOut u j = stageOut s j := by rw [hu.stageOut_eq hjd, stageOut_latch]
  have hlen : u.len = s.len := by rw [hu.rest]; rfl
  rw [hv.data_eq hjd, State.latch_byteAt, State.latch_len, hlen, hsame, hu.data_eq hid, State.latch_byteAt,
    State.latch_len]
  split
  · exact hundo a _
  · rfl

/-! ## RND1.E and RND1.D (R152, R153) -/

/-- Round 1 needs a legal LEN only (R246). -/
theorem roundReady_rnd1 {i : Instr} {s : State} (hi : i ∈ [Instr.rnd1E, .rnd1D]) (hfit : Fits s.params.dataMax s.len) :
    RoundReady i s := by
  simp only [List.mem_cons, List.not_mem_nil, or_false] at hi
  obtain rfl | rfl := hi <;>
    exact ⟨checked_window (by simp) hfit, by simp [IsRound], fun h => (nomatch h)⟩

end Sys2Proof.Machine

namespace Sys2Proof.Proofs

open Sys2Proof.Machine Sys2Proof.Safety

/-- Settles O28: a legal LEN is the one check, and the stage over the whole window is `round1Out` in either direction. -/
theorem rnd1TransformsEachPosition : Obligations.Rnd1TransformsEachPosition := fun _ hfit =>
  ⟨(roundReady_rnd1 (by simp) hfit).completes (by decide), (roundReady_rnd1 (by simp) hfit).completes (by decide)⟩

/-- Settles O29: the second command meets the GAMMA and the LEN of the first, and `round1_undo` holds at each position. -/
theorem rnd1DirectionsUndoEachOther : Obligations.Rnd1DirectionsUndoEachOther := by
  intro s t hfit
  have hE : RoundReady .rnd1E s := roundReady_rnd1 (by simp) hfit
  have hD : RoundReady .rnd1D s := roundReady_rnd1 (by simp) hfit
  refine ⟨runsTo_pair_undo hE.isRound hD.isRound (by decide) (by decide) fun a b => (round1_undo _ a b).1,
    runsTo_pair_undo hD.isRound hE.isRound (by decide) (by decide) fun a b => (round1_undo _ a b).2, ?_, ?_⟩
  · exact exists_runsTo_of_roundReady (by simp [hE, hD])
  · exact exists_runsTo_of_roundReady (by simp [hE, hD])

end Sys2Proof.Proofs

/-! # Round 2 (spec/43_round2.md) -/

namespace Sys2Proof.Machine

open Safety

/-! ## RND2.E and RND2.D (R177, R178) -/

/-- The command `i` runs Round 2 in the direction `dir`. -/
def IsRnd2 (i : Instr) (dir : Dir) : Prop := (i = .rnd2E ∧ dir = .encrypt) ∨ (i = .rnd2D ∧ dir = .decrypt)

theorem isRnd2_rnd2E : IsRnd2 .rnd2E .encrypt := .inl ⟨rfl, rfl⟩

theorem isRnd2_rnd2D : IsRnd2 .rnd2D .decrypt := .inr ⟨rfl, rfl⟩

theorem IsRnd2.ne_dec {i : Instr} {dir : Dir} (h : IsRnd2 i dir) : i ≠ .dec := by
  obtain ⟨rfl, -⟩ | ⟨rfl, -⟩ := h <;> decide

theorem IsRnd2.isRound {i : Instr} {dir : Dir} (h : IsRnd2 i dir) : IsRound i := by
  obtain ⟨rfl, -⟩ | ⟨rfl, -⟩ := h <;> simp [IsRound]

theorem IsRnd2.runsRound2_eq {i : Instr} {dir : Dir} (h : IsRnd2 i dir) : runsRound2 i = true := by
  obtain ⟨rfl, -⟩ | ⟨rfl, -⟩ := h <;> rfl

/-- A legal LEN is the one check (R246). -/
theorem IsRnd2.checked {i : Instr} {dir : Dir} {s : State} (h : IsRnd2 i dir) (hfit : Fits s.params.dataMax s.len) :
    Checked i s := by
  obtain ⟨rfl, -⟩ | ⟨rfl, -⟩ := h <;> exact checked_window (by simp) hfit

theorem IsRnd2.roundReady {i : Instr} {dir : Dir} {s : State} (h : IsRnd2 i dir) (hfit : Fits s.params.dataMax s.len)
    (ho : ¬ overruns (s.byteAt .gamma) s.len) : RoundReady i s :=
  ⟨h.checked hfit, h.isRound, fun _ => by rwa [windowLen_of_ne_dec h.ne_dec]⟩

/-- At the overrun the first 255 positions have been transformed and no other (R176). -/
theorem IsRnd2.overrunOut_eq {i : Instr} {dir : Dir} (h : IsRnd2 i dir) (s : State) (a : Nat) (b : Byte) :
    overrunOut s i a b =
      if a < 255 then round2Out (s.byteAt .gamma) s.iv s.pwhash dir s.len a b else b := by
  obtain ⟨rfl, rfl⟩ | ⟨rfl, rfl⟩ := h <;> rfl

/-- A window that overruns has 256 bytes or more, so DATA below 255 is transformed and DATA from 255 on is kept,
inside the window or not. -/
theorem IsRnd2.exec_overrun {i : Instr} {dir : Dir} {s : State} (h : IsRnd2 i dir) (hfit : Fits s.params.dataMax s.len)
    (ho : overruns (s.byteAt .gamma) s.len) :
    ∃ t, exec i s = .next t ∧ t.status = faulted .grange s.status.keyv ∧ ∀ a, t.byteAt .data a =
      if a < 255 then round2Out (s.byteAt .gamma) s.iv s.pwhash dir s.len a (s.byteAt .data a)
      else s.byteAt .data a := by
  obtain ⟨t, ht, hr⟩ := round_overrun (h.checked hfit) h.runsRound2_eq (by rwa [windowLen_of_ne_dec h.ne_dec])
  have hlong : 256 ≤ s.len := ho.2
  refine ⟨t, ht, hr.status, fun a => ?_⟩
  rw [hr.data_eq h.ne_dec, h.overrunOut_eq]
  split
  case isTrue => rfl
  case isFalse ha => rw [if_neg (by omega)]

/-! ## Passwords that leave a zero in GAMMA (R114, R176) -/

theorem padded_of_le {n m : Nat} (pw : Nat → Byte) (hm : n ≤ m) : padded pw n m = 0x00 := if_neg (Nat.not_lt.mpr hm)

/-- A zero at an index from 1 to 254 wraps the cursor in a window of any length. -/
theorem not_overruns_of_zero {g : Nat → Byte} {z : Nat} (h1 : 1 ≤ z) (h2 : z ≤ 254) (hz : g z = 0x00) (n : Nat) :
    ¬ overruns g n := fun ⟨hne, _⟩ => hne z h1 h2 hz

end Sys2Proof.Machine

namespace Sys2Proof.Proofs

open Sys2Proof.Machine Sys2Proof.Safety

/-- Settles O30: without an overrun the stage over the whole window is `round2Out` in either direction. -/
theorem rnd2TransformsEachPosition : Obligations.Rnd2TransformsEachPosition := by
  intro s hfit ho
  constructor
  · exact (isRnd2_rnd2E.roundReady hfit ho).completes isRnd2_rnd2E.ne_dec
  · exact (isRnd2_rnd2D.roundReady hfit ho).completes isRnd2_rnd2D.ne_dec

/-- Settles O31: the second command meets the GAMMA, IV, PWHASH and LEN of the first, and `round2_undo` holds at each
position. -/
theorem rnd2DirectionsUndoEachOther : Obligations.Rnd2DirectionsUndoEachOther := by
  intro s t
  constructor
  · exact runsTo_pair_undo isRnd2_rnd2E.isRound isRnd2_rnd2D.isRound isRnd2_rnd2E.ne_dec isRnd2_rnd2D.ne_dec
      fun a b => (round2_undo _ _ _ _ a b).1
  · exact runsTo_pair_undo isRnd2_rnd2D.isRound isRnd2_rnd2E.isRound isRnd2_rnd2D.ne_dec isRnd2_rnd2E.ne_dec
      fun a b => (round2_undo _ _ _ _ a b).2

/-- Settles O32: without an overrun the command completes; with one, positions 0 to 254 were written before it. -/
theorem rnd2OverrunKeepsTheFirst255Positions : Obligations.Rnd2OverrunKeepsTheFirst255Positions := by
  intro s i dir hfit (hi : IsRnd2 i dir)
  by_cases ho : overruns (s.byteAt .gamma) s.len
  · obtain ⟨t, ht, hst, hdata⟩ := hi.exec_overrun hfit ho
    have herr : t.status.err = .grange := congrArg Status.err hst
    exact ⟨t, ht, iff_of_true herr ho, fun _ =>
      ⟨hst, fun a ha => by rw [hdata, if_pos ha], fun a ha => by rw [hdata, if_neg (Nat.not_lt.mpr ha)]⟩⟩
  · obtain ⟨t, ht, hst, -⟩ := (hi.roundReady hfit ho).completes hi.ne_dec
    have herr : t.status.err ≠ .grange := by rw [hst]; exact nofun
    exact ⟨t, ht, iff_of_false herr ho, fun h => absurd h herr⟩

/-- Settles O49: GAMMA[254] is in the retained tail, where a password below 255 bytes has been padded with a zero. -/
theorem shortPasswordsNeverOverrun : Obligations.ShortPasswordsNeverOverrun := by
  intro s t n hlen h hok
  have hzero : t.byteAt .gamma 254 = 0x00 := by
    rw [exec_kgen_gamma h hok (by omega), gammaOf_tail _ (by omega), padded_of_le _ (by omega)]
  exact not_overruns_of_zero (by omega) (by omega) hzero n

end Sys2Proof.Proofs

/-! # Round 3 (spec/44_round3.md) -/

namespace Sys2Proof.Machine

open Safety

/-! ## RND3.E and RND3.D (R194, R195) -/

/-- Round 3 needs a legal LEN and a legal PW2LEN (R246); it has no cursor that could overrun. -/
theorem roundReady_rnd3 {i : Instr} {s : State} (hi : i ∈ [Instr.rnd3E, .rnd3D]) (hfit : Fits s.params.dataMax s.len)
    (hpw2 : Fits s.params.pwMax s.pw2len) : RoundReady i s := by
  have hchecked : Checked i s := checked_rnd3 hi hfit hpw2
  simp only [List.mem_cons, List.not_mem_nil, or_false] at hi
  obtain rfl | rfl := hi
  · exact ⟨hchecked, by simp [IsRound], nofun⟩
  · exact ⟨hchecked, by simp [IsRound], nofun⟩

end Sys2Proof.Machine

namespace Sys2Proof.Proofs

open Sys2Proof.Machine Sys2Proof.Safety

/-- Settles O33: the two lengths are the only checks, and the stage over the whole window is `round3Out` in either
direction. -/
theorem rnd3TransformsEachPosition : Obligations.Rnd3TransformsEachPosition := by
  intro s hfit hpw2
  constructor
  · exact (roundReady_rnd3 (by simp) hfit hpw2).completes (by decide)
  · exact (roundReady_rnd3 (by simp) hfit hpw2).completes (by decide)

/-- Settles O34: the second command meets the PW2, PW2LEN, GHASH and LEN of the first, so the key byte and the rolling
state at each position are the same again, and `round3_undo` holds there. -/
theorem rnd3DirectionsUndoEachOther : Obligations.Rnd3DirectionsUndoEachOther := by
  intro s t hfit hpw2
  have hE : RoundReady .rnd3E s := roundReady_rnd3 (by simp) hfit hpw2
  have hD : RoundReady .rnd3D s := roundReady_rnd3 (by simp) hfit hpw2
  refine ⟨?_, ?_, ?_, ?_⟩
  · exact runsTo_pair_undo hE.isRound hD.isRound (by decide) (by decide) fun a b => (round3_undo _ _ _ _ a b).1
  · exact runsTo_pair_undo hD.isRound hE.isRound (by decide) (by decide) fun a b => (round3_undo _ _ _ _ a b).2
  · exact exists_runsTo_of_roundReady (by simp [hE, hD])
  · exact exists_runsTo_of_roundReady (by simp [hE, hD])

end Sys2Proof.Proofs

/-! # The composition controller (spec/45_controller.md) -/

namespace Sys2Proof.Machine

open Safety

/-! ## What a command can change at all (R216) -/

/-- Every command leaves all but GAMMA, DATA, the two digests, STATUS and the scratch registers as it was. -/
theorem exec_next_rest {i : Instr} {s t : State} (h : exec i s = .next t) :
    t = { s with gamma := t.gamma, data := t.data, ghash := t.ghash, pwhash := t.pwhash, status := t.status
                 scratch := t.scratch } := by
  by_cases hi : IsRound i
  · obtain ⟨e, F, hr⟩ := round_result hi h
    rw [hr.rest]
  · rw [(key_frame hi h).rest]

/-! ## The context INIT builds, and the unit commands (R211, R215) -/

/-- `t` holds the context of the passwords in `s`: Gamma(password1), its digest, and the digest of password2. -/
structure ContextBuilt (s t : State) : Prop where
  gamma : ∀ m, m < 255 → t.byteAt .gamma m = gammaOf (padded (s.byteAt .pw1) s.pw1len) m
  ghash : t.ghash = gammaDigest (gammaOf (padded (s.byteAt .pw1) s.pw1len))
  pwhash : t.pwhash = passwordDigest (padded (s.byteAt .pw2) s.pw2len)

theorem Initialised.contextBuilt {s t : State} (h : Initialised s t) : ContextBuilt s t :=
  ⟨h.bytes, h.ghash.trans (gammaDigest_congr h.bytes), h.pwhash⟩

theorem exec_init_completes {s : State} (hpw1 : Fits s.params.pwMax s.pw1len) (hpw2 : Fits s.params.pwMax s.pw2len) :
    ∃ t, exec .init s = .next t ∧ t.status = completed true ∧ ContextBuilt s t := by
  obtain ⟨t, ht, hi⟩ := exec_init_ok (checked_init hpw1 hpw2)
  exact ⟨t, ht, by rw [hi.rest], hi.contextBuilt⟩

/-- An INIT that ended without a fault found both lengths legal. -/
theorem fits_of_exec_init {s t : State} (h : exec .init s = .next t) (hok : t.status.err = .none) :
    Fits s.params.pwMax s.pw1len ∧ Fits s.params.pwMax s.pw2len := by
  have hc := checked_of_ok h hok
  exact ⟨(fits_iff _ _).mpr (hc.pw1 rfl), (fits_iff _ _).mpr (hc.pw2 rfl)⟩

theorem exec_init_ended {s t : State} (h : exec .init s = .next t) (hok : t.status.err = .none) :
    t.status = completed true ∧ ContextBuilt s t := by
  obtain ⟨hpw1, hpw2⟩ := fits_of_exec_init h hok
  obtain ⟨u, hu, hst, hctx⟩ := exec_init_completes hpw1 hpw2
  rw [h] at hu; cases hu
  exact ⟨hst, hctx⟩

/-- KGEN, DGST.G and DGST.P complete one after the other and build the same context; each clears KEYV. -/
theorem runsTo_units {s : State} (hpw1 : Fits s.params.pwMax s.pw1len) (hpw2 : Fits s.params.pwMax s.pw2len) :
    ∃ u, RunsTo [.kgen, .dgstG, .dgstP] s u ∧ u.status.keyv = false ∧ ContextBuilt s u := by
  obtain ⟨a, ha, hast, hgamma⟩ := exec_kgen_completes (s := s.latch (encode .kgen)) hpw1
  rw [State.latch_byteAt_fun, State.latch_pw1len] at hgamma
  have hframe := key_frame (by simp [IsRound]) ha
  have hrest := hframe.rest
  have hpw2a : a.byteAt .pw2 = s.byteAt .pw2 := by
    funext m; exact State.byteAt_congr (hframe.mem_other (by decide)) (by rw [hrest]) m
  have hlena : a.pw2len = s.pw2len := by rw [hrest]; rfl
  have hparams : a.params = s.params := by rw [hrest]; rfl
  obtain ⟨r, hb⟩ := exec_dgstG_ok (a.latch (encode .dgstG))
  obtain ⟨r', hc⟩ := exec_dgstP_ok (s := State.latch { a.latch (encode .dgstG) with
      ghash := gammaDigest ((a.latch (encode .dgstG)).byteAt .gamma), status := completed false
      scratch := (a.latch (encode .dgstG)).scratch.withDgu r } (encode .dgstP))
    (checked_dgstP (by rw [← hparams, ← hlena] at hpw2; exact hpw2))
  refine ⟨_, ⟨a, ha, by rw [hast]; rfl, _, hb, rfl, _, hc, rfl, rfl⟩, rfl, hgamma, gammaDigest_congr hgamma, ?_⟩
  rw [← hpw2a, ← hlena]
  rfl

/-! ## Round commands one after another (R215) -/

/-- What the round commands `is`, each with the operands of `s`, make of the byte at position a. -/
def stagesOut (s : State) (is : List Instr) (a : Nat) (b : Byte) : Byte := is.foldl (fun b i => stageOut s i a b) b

/-- All of DATA after a completed run of round commands other than DEC. -/
theorem runsTo_data_eq {is : List Instr} : ∀ {s t : State}, (∀ i ∈ is, IsRound i ∧ i ≠ .dec) → RunsTo is s t →
    ∀ a, t.byteAt .data a = if a < s.len then stagesOut s is a (s.byteAt .data a) else s.byteAt .data a := by
  induction is with
  | nil => rintro s t - rfl a; exact (ite_self _).symm
  | cons i rest ih =>
    intro s t his hrun a
    obtain ⟨⟨hi, hid⟩, hrest⟩ := List.forall_mem_cons.mp his
    obtain ⟨u, hu, ht⟩ := runsTo_cons_round hi hrun
    have hlen : u.len = s.len := by rw [hu.rest]; rfl
    have hstages : ∀ b, stagesOut u rest a b = stagesOut s rest a b := fun b =>
      List.foldl_ext _ _ b fun b j hj => by rw [hu.stageOut_eq (hrest j hj).2, stageOut_latch]
    rw [ih hrest ht, hlen, hstages, hu.data_eq hid, State.latch_byteAt, State.latch_len]
    split
    · rfl
    · rfl

/-- A command of a single round completes where both lengths are legal and the window does not overrun. -/
theorem roundReady_stage {i : Instr} {s : State} (hi : i ∈ [Instr.rnd1E, .rnd1D, .rnd2E, .rnd2D, .rnd3E, .rnd3D])
    (hfit : Fits s.params.dataMax s.len) (hpw2 : Fits s.params.pwMax s.pw2len)
    (ho : ¬ overruns (s.byteAt .gamma) s.len) : RoundReady i s := by
  simp only [List.mem_cons, List.not_mem_nil, or_false] at hi
  obtain rfl | rfl | rfl | rfl | rfl | rfl := hi
  · exact roundReady_rnd1 (by simp) hfit
  · exact roundReady_rnd1 (by simp) hfit
  · exact isRnd2_rnd2E.roundReady hfit ho
  · exact isRnd2_rnd2D.roundReady hfit ho
  · exact roundReady_rnd3 (by simp) hfit hpw2
  · exact roundReady_rnd3 (by simp) hfit hpw2

/-! ## ENC and DEC (R213, R214) -/

theorem roundReady_enc {s : State} (hfit : Fits s.params.dataMax s.len) (hpw2 : Fits s.params.pwMax s.pw2len)
    (hk : s.status.keyv = true) (ho : ¬ overruns (s.byteAt .gamma) s.len) : RoundReady .enc s :=
  ⟨checked_enc hfit hpw2 hk, by simp [IsRound], fun _ => ho⟩

theorem roundReady_dec {s : State} (hfit : Fits s.params.dataMax s.len) (hpw2 : Fits s.params.pwMax s.pw2len)
    (hk : s.status.keyv = true) (hl : 1 ≤ s.len) (ho : ¬ overruns (s.byteAt .gamma) (s.len - 1)) : RoundReady .dec s :=
  ⟨checked_dec hfit hpw2 hk hl, by simp [IsRound], fun _ => ho⟩

/-- A round command that ended without a fault had passed its checks and does not overrun. -/
theorem roundReady_of_ok {i : Instr} {s t : State} (hi : IsRound i) (h : exec i s = .next t)
    (hok : t.status.err = .none) : RoundReady i s := by
  obtain ⟨rfl, hp⟩ | ⟨hc, ho, -⟩ | ⟨-, -, hr⟩ := round_inv hi h
  · exact absurd hok hp
  · exact ⟨hc, hi, fun hr2 hov => ho ⟨hr2, hov⟩⟩
  · rw [hr.status] at hok; cases hok

/-- A round command whose checks passed completes, or its window overruns. -/
theorem round_ended {i : Instr} {s t : State} (hi : IsRound i) (hc : Checked i s) (h : exec i s = .next t) :
    (¬ (runsRound2 i = true ∧ overruns (s.byteAt .gamma) (windowLen i s)) ∧
      RoundResult i s t .none (stageOut s i)) ∨
    ((runsRound2 i = true ∧ overruns (s.byteAt .gamma) (windowLen i s)) ∧
      RoundResult i s t .grange (overrunOut s i)) := by
  obtain ⟨-, hp⟩ | ⟨-, hr⟩ | ⟨-, hr⟩ := round_inv hi h
  · exact absurd ((precheck_none_iff i s).mpr hc) hp
  · exact .inl hr
  · exact .inr hr

/-- DEC does not touch the IV in front of the remainder. -/
theorem RoundResult.dec_data_zero {s t : State} {e : Err} {F : Nat → Byte → Byte} (h : RoundResult .dec s t e F) :
    t.byteAt .data 0 = s.byteAt .data 0 := h.outside 0 (by simp [windowOff])

/-! ## A framed buffer (R214, R218) -/

theorem fits_of_le {c : Capacity} {m n : Nat} (h : Fits c n) (hmn : m ≤ n) : Fits c m := by
  cases c with
  | bounded k => exact hmn.trans h
  | unbounded => trivial

theorem sameBytes_symm {s t : State} {sp : Space} {n : Nat} (h : SameBytes s t sp n) : SameBytes t s sp n :=
  fun a ha => (h a ha).symm

theorem samePw2_symm {s t : State} (h : SamePw2 s t) : SamePw2 t s :=
  ⟨h.1.symm, h.1 ▸ sameBytes_symm h.2⟩

/-- `f` holds the context of `c` and a buffer of one byte more, the first byte being the IV of `c`. -/
structure Framed (c f : State) : Prop where
  params : c.params = f.params
  gamma : SameGamma f c
  pw2 : SamePw2 f c
  ghash : c.ghash = f.ghash
  pwhash : c.pwhash = f.pwhash
  iv : c.iv = f.byteAt .data 0
  len : c.len + 1 = f.len

theorem Framed.windowLen_dec {c f : State} (h : Framed c f) : windowLen .dec f = c.len := by
  rw [windowLen, ← h.len, Nat.add_sub_cancel]

theorem Framed.overruns_iff {c f : State} (h : Framed c f) :
    overruns (f.byteAt .gamma) (windowLen .dec f) ↔ overruns (c.byteAt .gamma) c.len := by
  rw [h.windowLen_dec]
  exact overruns_congr h.gamma

/-- DEC on the framed buffer does at each position what the stage commands do on the unframed one. -/
theorem Framed.stageOut_dec {c f : State} (h : Framed c f) (ho : ¬ overruns (c.byteAt .gamma) c.len) {a : Nat}
    (ha : a < c.len) (b : Byte) : stageOut f .dec a b = stagesOut c [.rnd3D, .rnd2D, .rnd1D] a b := by
  have hlen : f.len - 1 = c.len := h.windowLen_dec
  have hround2 := fun b => round2_congr (fun m hm => (h.gamma m hm).symm) ho ha (iv := c.iv) (pwh := c.pwhash)
    (d := .decrypt) (b := b)
  simp only [stagesOut, List.foldl, stageOut, hlen, ← h.iv, ← h.ghash, ← h.pwhash, ← h.pw2.1, hround2,
    round1_congr h.gamma, round3_congr h.pw2.2]

/-- Where DEC of the framed buffer passes its checks and does not overrun, the stage commands complete on the unframed
one. -/
theorem Framed.roundReady {c f : State} (h : Framed c f) (hf : RoundReady .dec f) {i : Instr}
    (hi : i ∈ [Instr.rnd1E, .rnd1D, .rnd2E, .rnd2D, .rnd3E, .rnd3D]) : RoundReady i c := by
  have hfit : Fits f.params.dataMax f.len := (fits_iff _ _).mpr (hf.checked.len rfl)
  have hpw2 : Fits f.params.pwMax f.pw2len := (fits_iff _ _).mpr (hf.checked.pw2 rfl)
  rw [← h.params] at hfit hpw2
  exact roundReady_stage hi (fits_of_le hfit (by have := h.len; omega)) (h.pw2.1 ▸ hpw2)
    (h.overruns_iff.not.mp (hf.noOverrun rfl))

/-- The inverse rounds in the inverse order undo ENC at each position. -/
theorem stagesOut_undo_enc (s : State) (a : Nat) (b : Byte) :
    stagesOut s [.rnd3D, .rnd2D, .rnd1D] a (stageOut s .enc a b) = b := by
  simp only [stagesOut, List.foldl, stageOut, (round1_undo _ _ _).1, (round2_undo _ _ _ _ _ _).1,
    (round3_undo _ _ _ _ _ _).1]

/-! ## What a command reads decides how it ends (R217, R92) -/

/-- Command by command, what the checks of R246 look at is among the operands of R92. -/
theorem precheck_congr {i : Instr} {s t : State} (hp : s.params = t.params) (h : SameOperands i s t) :
    precheck i s = precheck i t := by
  cases i <;> simp only [SameOperands, SamePw1, SamePw2, SameBuffer] at h <;>
    simp [precheck, usesPw1len, usesPw2len, usesLen, usesKey, usesIvByte, hp, h]

theorem runsRound2_isRound {i : Instr} (h : runsRound2 i = true) : IsRound i := by
  cases i <;> cases h <;> simp [IsRound]

/-- The round commands read the buffer they write. -/
theorem sameBuffer_of_sameOperands {i : Instr} {s t : State} (hi : IsRound i) (h : SameOperands i s t) :
    SameBuffer s t := by
  cases i <;> simp [IsRound] at hi
  case rnd1E | rnd1D => exact h.2
  case rnd2E | rnd2D => obtain ⟨-, -, -, hb⟩ := h; exact hb
  case rnd3E | rnd3D => obtain ⟨-, -, hb⟩ := h; exact hb
  case enc => obtain ⟨-, -, -, -, -, -, hb⟩ := h; exact hb
  case dec => obtain ⟨-, -, -, -, -, hb⟩ := h; exact hb

/-- The commands that run Round 2 read GAMMA. -/
theorem sameGamma_of_sameOperands {i : Instr} {s t : State} (hr : runsRound2 i = true) (h : SameOperands i s t) :
    SameGamma s t := by
  cases i <;> cases hr
  case rnd2E | rnd2D => exact h.1
  case enc | dec => exact h.2.1

theorem windowLen_congr {s t : State} (i : Instr) (h : s.len = t.len) : windowLen i s = windowLen i t := by
  unfold windowLen
  rw [h]

/-- The cursor overruns on both states or on neither. -/
theorem overrun_congr {i : Instr} {s t : State} (h : SameOperands i s t) :
    (runsRound2 i = true ∧ overruns (s.byteAt .gamma) (windowLen i s)) ↔
      (runsRound2 i = true ∧ overruns (t.byteAt .gamma) (windowLen i t)) := by
  refine and_congr_right fun hr => ?_
  obtain ⟨hlen, -⟩ := sameBuffer_of_sameOperands (runsRound2_isRound hr) h
  rw [overruns_congr (sameGamma_of_sameOperands hr h), windowLen_congr i hlen]

open scoped Classical in
/-- The fault code of a command: a check that fails, the overrun, or none. -/
theorem exec_next_err {i : Instr} {s t : State} (h : exec i s = .next t) : t.status.err =
    if precheck i s = .none then
      if runsRound2 i = true ∧ overruns (s.byteAt .gamma) (windowLen i s) then .grange else .none
    else precheck i s := by
  have hpass : Checked i s → precheck i s = .none := (precheck_none_iff i s).mpr
  obtain ⟨hp, he⟩ | ⟨hc, -, ho, u, -, he⟩ | ⟨hc, hr, ho, u, -, he⟩ | ⟨rfl, hc, u, -, he⟩ | ⟨rfl, r, he⟩ |
    ⟨rfl, hc, r, he⟩ | ⟨rfl, hc, u, hu, he⟩ := exec_cases i s <;> rw [he] at h <;> cases h
  · rw [if_neg hp]; rfl
  · rw [if_pos (hpass hc), if_neg ho]; rfl
  · rw [if_pos (hpass hc), if_pos ⟨hr, ho⟩]; rfl
  · rw [if_pos (hpass hc), if_neg (fun h => nomatch h.1)]; rfl
  · rw [if_pos (hpass (checked_dgstG s)), if_neg (fun h => nomatch h.1)]; rfl
  · rw [if_pos (hpass hc), if_neg (fun h => nomatch h.1)]; rfl
  · rw [if_pos (hpass hc), if_neg (fun h => nomatch h.1), hu.rest]; rfl

open scoped Classical in
/-- Both parts of the code are functions of the operands. -/
theorem exec_err_congr {i : Instr} {s t s' t' : State} (hp : s.params = t.params) (hsame : SameOperands i s t)
    (hs : exec i s = .next s') (ht : exec i t = .next t') : s'.status.err = t'.status.err := by
  rw [exec_next_err hs, exec_next_err ht, precheck_congr hp hsame, if_congr (overrun_congr hsame) rfl rfl]

/-- A command that ended without a fault or by the overrun had passed its checks. -/
theorem checked_of_ran {i : Instr} {s t : State} (h : exec i s = .next t)
    (hran : t.status.err = .none ∨ t.status.err = .grange) : Checked i s := by
  by_contra hc
  have hp : precheck i s ≠ .none := mt (precheck_none_iff i s).mp hc
  rw [exec_of_check hp] at h; cases h
  exact hran.elim hp (precheck_ne_grange i s).1

/-- Only a round command can overrun. -/
theorem key_err_none {i : Instr} {s t : State} (hi : ¬ IsRound i) (h : exec i s = .next t)
    (hran : t.status.err = .none ∨ t.status.err = .grange) : t.status.err = .none := by
  refine hran.resolve_right fun hg => ?_
  rw [exec_next_err h] at hg
  split_ifs at hg with hp ho
  · exact hi (runsRound2_isRound ho.1)
  · exact (precheck_ne_grange i s).1 hg

/-! ## What a command reads decides what it leaves (R217, R92) -/

/-- What a command does at a position of a window that does not overrun is a function of its operands. -/
theorem stageOut_congr {i : Instr} {s t : State} (h : SameOperands i s t)
    (ho : ¬ (runsRound2 i = true ∧ overruns (s.byteAt .gamma) (windowLen i s))) {a : Nat} (ha : a < windowLen i s)
    (b : Byte) : stageOut s i a b = stageOut t i a b := by
  have hno : runsRound2 i = true → ¬ overruns (s.byteAt .gamma) (windowLen i s) := fun hr hov => ho ⟨hr, hov⟩
  cases i
  case kgen | dgstG | dgstP | init => rfl
  case rnd1E | rnd1D => simp only [stageOut, round1_congr h.1]
  case rnd2E | rnd2D =>
    obtain ⟨hg, hiv, hpw, hl, -⟩ := h
    simp only [stageOut, ← hiv, ← hpw, ← hl]
    exact round2_congr hg (hno rfl) ha
  case rnd3E | rnd3D =>
    obtain ⟨⟨hl2, hp2⟩, hgh, hl, -⟩ := h
    simp only [stageOut, ← hl2, ← hgh, ← hl, round3_congr hp2]
  case enc =>
    obtain ⟨-, hg, hiv, hpw, ⟨hl2, hp2⟩, hgh, hl, -⟩ := h
    simp only [stageOut, ← hiv, ← hpw, ← hl2, ← hgh, ← hl, round1_congr hg, round3_congr hp2]
    rw [round2_congr (n := s.len) hg (hno rfl) ha]
  case dec =>
    obtain ⟨-, hg, hpw, ⟨hl2, hp2⟩, hgh, hl, hd⟩ := h
    have hlen : a < s.len - 1 := ha
    simp only [stageOut, ← hd 0 (by omega), ← hpw, ← hl2, ← hgh, ← hl, round1_congr hg, round3_congr hp2]
    rw [round2_congr (n := s.len - 1) hg (hno rfl) ha]

/-- And so is what it has done in a window that does. -/
theorem overrunOut_congr {i : Instr} {s t : State} (h : SameOperands i s t)
    (ho : overruns (s.byteAt .gamma) (windowLen i s)) {a : Nat} (ha : a < windowLen i s) (b : Byte) :
    overrunOut s i a b = overrunOut t i a b := by
  cases i
  case kgen | dgstG | dgstP | rnd1E | rnd1D | rnd3E | rnd3D | init => rfl
  case rnd2E | rnd2D =>
    obtain ⟨hg, hiv, hpw, hl, -⟩ := h
    simp only [overrunOut, ← hiv, ← hpw, ← hl]
    exact ite_congr rfl (fun h255 => round2_congr_overrun hg ho h255) fun _ => rfl
  case enc =>
    obtain ⟨-, hg, hiv, hpw, -, -, hl, -⟩ := h
    simp only [overrunOut, ← hiv, ← hpw, ← hl, round1_congr hg]
    exact ite_congr rfl (fun h255 => round2_congr_overrun hg ho h255) fun _ => rfl
  case dec =>
    obtain ⟨-, hg, hpw, ⟨hl2, hp2⟩, hgh, hl, hd⟩ := h
    have hlen : a < s.len - 1 := ha
    simp only [overrunOut, ← hd 0 (by omega), ← hpw, ← hl2, ← hgh, ← hl, round3_congr hp2]
    exact ite_congr rfl (fun h255 => round2_congr_overrun hg ho h255) fun _ => rfl

/-- What the round commands write is the buffer. -/
theorem sameResults_of_sameBuffer {i : Instr} {s t : State} (hi : IsRound i) (h : SameBuffer s t) :
    SameResults i s t := by
  cases i <;> simp [IsRound] at hi <;> exact h

/-- One buffer rewritten in one window by functions that agree there is one buffer again. -/
theorem RoundResult.sameBuffer {i : Instr} {s t s' t' : State} {e e' : Err} {F G : Nat → Byte → Byte}
    (hs : RoundResult i s s' e F) (ht : RoundResult i t t' e' G) (hb : SameBuffer s t)
    (hFG : ∀ a, a < windowLen i s → ∀ b, F a b = G a b) : SameBuffer s' t' := by
  obtain ⟨hlen, hdata⟩ := hb
  have hw := windowLen_congr i hlen
  have hs' : s'.len = s.len := by rw [hs.rest]
  have ht' : t'.len = t.len := by rw [ht.rest]
  refine ⟨by rw [hs', ht', hlen], fun a ha => ?_⟩
  rw [hs'] at ha
  by_cases hin : windowOff i ≤ a ∧ a < windowOff i + windowLen i s
  · obtain ⟨k, rfl⟩ := Nat.exists_eq_add_of_le hin.1
    have hk : k < windowLen i s := by omega
    rw [hs.bytes k hk, ht.bytes k (hw ▸ hk), hdata _ ha, hFG k hk]
  · rw [hs.outside a hin, ht.outside a (hw ▸ hin), hdata a ha]

/-- Round commands that ran on the same operands end alike and leave the same buffer. -/
theorem round_sameBuffer {i : Instr} {s t s' t' : State} (hi : IsRound i) (hcs : Checked i s) (hct : Checked i t)
    (hsame : SameOperands i s t) (hs : exec i s = .next s') (ht : exec i t = .next t') : SameBuffer s' t' := by
  obtain ⟨ho, hrs⟩ | ⟨ho, hrs⟩ := round_ended hi hcs hs <;> obtain ⟨ho', hrt⟩ | ⟨ho', hrt⟩ := round_ended hi hct ht
  · exact hrs.sameBuffer hrt (sameBuffer_of_sameOperands hi hsame) fun a ha b => stageOut_congr hsame ho ha b
  · exact absurd ((overrun_congr hsame).mpr ho') ho
  · exact absurd ((overrun_congr hsame).mp ho) ho'
  · exact hrs.sameBuffer hrt (sameBuffer_of_sameOperands hi hsame) fun a ha b => overrunOut_congr hsame ho.2 ha b

/-- A key command that completed leaves in KEYV whether it is INIT. -/
theorem key_keyv {i : Instr} {s t : State} (hi : ¬ IsRound i) (h : exec i s = .next t) (hok : t.status.err = .none) :
    t.status.keyv = decide (i = .init) := by
  rw [key_status hi h, hok, if_pos rfl]

theorem ContextBuilt.congr {s t s' t' : State} (hs : ContextBuilt s s') (ht : ContextBuilt t t') (h1 : SamePw1 s t)
    (h2 : SamePw2 s t) : SameGamma s' t' ∧ s'.ghash = t'.ghash ∧ s'.pwhash = t'.pwhash := by
  have hpad1 : padded (s.byteAt .pw1) s.pw1len = padded (t.byteAt .pw1) t.pw1len := by
    rw [padded_congr h1.2, h1.1]
  have hpad2 : padded (s.byteAt .pw2) s.pw2len = padded (t.byteAt .pw2) t.pw2len := by
    rw [padded_congr h2.2, h2.1]
  refine ⟨fun m hm => ?_, ?_, ?_⟩
  · rw [hs.gamma m hm, ht.gamma m hm, hpad1]
  · rw [hs.ghash, ht.ghash, hpad1]
  · rw [hs.pwhash, ht.pwhash, hpad2]

/-- A DGST.G has left the digest of GAMMA. -/
theorem exec_dgstG_ghash {s t : State} (h : exec .dgstG s = .next t) : t.ghash = gammaDigest (s.byteAt .gamma) := by
  obtain ⟨r, hr⟩ := exec_dgstG_ok s
  rw [h] at hr; cases hr
  rfl

/-- Key commands that completed on the same operands leave the same results. -/
theorem key_sameResults {i : Instr} {s t s' t' : State} (hi : ¬ IsRound i) (hsame : SameOperands i s t)
    (hs : exec i s = .next s') (ht : exec i t = .next t') (hoks : s'.status.err = .none)
    (hokt : t'.status.err = .none) : SameResults i s' t' := by
  have hkeyv : s'.status.keyv = t'.status.keyv := by rw [key_keyv hi hs hoks, key_keyv hi ht hokt]
  cases i <;> simp [IsRound] at hi
  case kgen =>
    refine ⟨fun m hm => ?_, hkeyv⟩
    rw [exec_kgen_gamma hs hoks hm, exec_kgen_gamma ht hokt hm, padded_congr hsame.2, hsame.1]
  case dgstG => exact ⟨by rw [exec_dgstG_ghash hs, exec_dgstG_ghash ht, gammaDigest_congr hsame], hkeyv⟩
  case dgstP =>
    exact ⟨by rw [exec_dgstP_pwhash hs hoks, exec_dgstP_pwhash ht hokt, padded_congr hsame.2, hsame.1], hkeyv⟩
  case init =>
    obtain ⟨hg, hgh, hpw⟩ := (exec_init_ended hs hoks).2.congr (exec_init_ended ht hokt).2 hsame.1 hsame.2
    exact ⟨hg, hgh, hpw, hkeyv⟩

end Sys2Proof.Machine

namespace Sys2Proof.Proofs

open Sys2Proof.Machine Sys2Proof.Safety

/-- Settles O35: the generator, the gamma digest of what it left, and the password digest, each in closed form. -/
theorem initBuildsTheContext : Obligations.InitBuildsTheContext := by
  intro s hpw1 hpw2
  obtain ⟨t, ht, hst, hctx⟩ := exec_init_completes hpw1 hpw2
  exact ⟨t, ht, hst, hctx.gamma, hctx.ghash, hctx.pwhash⟩

/-- Settles O36: without an overrun ENC rewrites its window, all of the buffer, by the three rounds. -/
theorem encAppliesTheRoundsForward : Obligations.EncAppliesTheRoundsForward := by
  intro s hfit hpw2 hk ho
  rw [← hk]
  exact (roundReady_enc hfit hpw2 hk ho).completes (by decide)

/-- Settles O37: without an overrun DEC rewrites its window, all of the buffer but DATA[0], by the inverse rounds. -/
theorem decAppliesTheRoundsBackward : Obligations.DecAppliesTheRoundsBackward := by
  intro s hfit hpw2 hk hl ho
  obtain ⟨t, ht, hr⟩ := (roundReady_dec hfit hpw2 hk hl ho).exec_next
  exact ⟨t, ht, by rw [hr.status, hk]; rfl, hr.dec_data_zero, hr.bytes⟩

/-- Settles O38: at the overrun the stage before Round 2 has covered the window and Round 2 its first 255 positions. -/
theorem composedOverrunKeepsTheWritesMade : Obligations.ComposedOverrunKeepsTheWritesMade := by
  intro s hfit hpw2 hk
  constructor
  · intro ho
    obtain ⟨t, ht, hr⟩ := round_overrun (checked_enc hfit hpw2 hk) rfl ho
    exact ⟨t, ht, by rw [hr.status, hk], fun i hi => by rw [hr.data_eq (by decide), if_pos hi]; rfl⟩
  · intro ho
    have hlong : 256 ≤ s.len - 1 := ho.2
    obtain ⟨t, ht, hr⟩ := round_overrun (checked_dec hfit hpw2 hk (by omega)) rfl ho
    exact ⟨t, ht, by rw [hr.status, hk], hr.dec_data_zero, hr.bytes⟩

/-- Settles O39: INIT and the unit commands both leave the context of the two passwords. -/
theorem initEqualsTheUnitCommands : Obligations.InitEqualsTheUnitCommands := by
  intro s t h hok
  obtain ⟨hpw1, hpw2⟩ := fits_of_exec_init h hok
  obtain ⟨hst, ht⟩ := exec_init_ended h hok
  obtain ⟨u, hrun, hkeyv, hu⟩ := runsTo_units hpw1 hpw2
  refine ⟨u, hrun, fun m hm => ?_, ?_, ?_, by rw [hst]; rfl, hkeyv⟩
  · rw [ht.gamma m hm, hu.gamma m hm]
  · rw [ht.ghash, hu.ghash]
  · rw [ht.pwhash, hu.pwhash]

/-- Settles O40: the checks ENC passed are those of the three stages, and its function is theirs one after another. -/
theorem encEqualsTheStageCommands : Obligations.EncEqualsTheStageCommands := by
  intro s t h hok
  have hready := roundReady_of_ok (by simp [IsRound]) h hok
  have hfit : Fits s.params.dataMax s.len := (fits_iff _ _).mpr (hready.checked.len rfl)
  have hpw2 : Fits s.params.pwMax s.pw2len := (fits_iff _ _).mpr (hready.checked.pw2 rfl)
  obtain ⟨u, hu⟩ := exists_runsTo_of_roundReady (is := [.rnd1E, .rnd2E, .rnd3E]) (s := s)
    fun i hi => roundReady_stage (by revert i; decide) hfit hpw2 (hready.noOverrun rfl)
  refine ⟨u, hu, fun a => ?_⟩
  rw [(round_result_of_ok hready.isRound h hok).data_eq (by decide), runsTo_data_eq (by simp [IsRound]) hu]
  rfl

/-- Settles O41: `s` is `c` framed, and DEC does at each position what the three stages do on `c`. -/
theorem decEqualsTheStageCommands : Obligations.DecEqualsTheStageCommands := by
  intro s c t h hok hp hg hpw2 hgh hpw hiv hlen hdata
  have hF : Framed c s := ⟨hp, hg, hpw2, hgh, hpw, hiv, hlen⟩
  have hready := roundReady_of_ok (by simp [IsRound]) h hok
  have hr := round_result_of_ok hready.isRound h hok
  obtain ⟨u, hu⟩ := exists_runsTo_of_roundReady (is := [.rnd3D, .rnd2D, .rnd1D]) (s := c)
    fun i hi => hF.roundReady hready (by revert i; decide)
  refine ⟨u, hu, fun i hi => ?_⟩
  rw [runsTo_data_eq (by simp [IsRound]) hu, if_pos hi, hdata i hi,
    ← hF.stageOut_dec (hF.overruns_iff.not.mp (hready.noOverrun rfl)) hi]
  exact hr.bytes i (by rw [hF.windowLen_dec]; exact hi)

/-- Settles O42: `f` is `s` framed but for DATA, so both windows have LEN bytes and overrun together; where they do not,
the inverse rounds undo ENC at each position. -/
theorem decOfFramedEncIsThePlaintext : Obligations.DecOfFramedEncIsThePlaintext := by
  intro s t f w hfit hpw2 hk h hp hkf hg hpw2f hgh hpw hlen hiv hdata hw
  have hF : Framed s f := ⟨hp.symm, sameBytes_symm hg, samePw2_symm hpw2f, hgh.symm, hpw.symm, hiv.symm, hlen.symm⟩
  have hE : Checked .enc s := checked_enc (fits_of_le hfit (Nat.le_succ _)) hpw2 hk
  have hD : Checked .dec f := checked_dec (by rw [hp, hlen]; exact hfit) (by rw [hp, ← hpw2f.1]; exact hpw2) hkf
    (by omega)
  obtain ⟨ho, hrt⟩ | ⟨ho, hrt⟩ := round_ended (by simp [IsRound]) hE h <;>
    obtain ⟨ho', hrw⟩ | ⟨ho', hrw⟩ := round_ended (by simp [IsRound]) hD hw
  · have ho : ¬ overruns (s.byteAt .gamma) s.len := fun hov => ho ⟨rfl, hov⟩
    refine ⟨fun _ => ⟨by rw [hrw.status]; rfl, fun i hi => ?_⟩, by rw [hrt.status, hrw.status]; simp [faulted]⟩
    have hbyte := hrw.bytes i (by rw [hF.windowLen_dec]; exact hi)
    rw [windowOff, hdata i hi, hF.stageOut_dec ho hi, hrt.data_eq (by decide), if_pos hi, stagesOut_undo_enc] at hbyte
    exact hbyte
  · exact absurd ⟨rfl, hF.overruns_iff.mp ho'.2⟩ ho
  · exact absurd ⟨rfl, hF.overruns_iff.mpr ho.2⟩ ho'
  · rw [hrt.status, hrw.status]; simp [faulted]

/-- Settles O45: checks, overrun and results are functions of the operands; the frame of a round command says the rest. -/
theorem resultsDependOnOperandsOnly : Obligations.ResultsDependOnOperandsOnly := by
  intro i s t s' t' hp hsame hs ht
  have herr := exec_err_congr hp hsame hs ht
  refine ⟨herr, fun hran => ?_, fun hi => ?_⟩
  · have hcs : Checked i s := checked_of_ran hs hran
    have hct : Checked i t := checked_of_ran ht (herr ▸ hran)
    by_cases hi : IsRound i
    · exact sameResults_of_sameBuffer hi (round_sameBuffer hi hcs hct hsame hs ht)
    · have hok := key_err_none hi hs hran
      exact key_sameResults hi hsame hs ht hok (herr ▸ hok)
  · obtain ⟨e, F, hr⟩ := round_result (by obtain rfl | rfl := hi <;> simp [IsRound]) hs
    rw [hr.rest]
    exact ⟨rfl, rfl, rfl, rfl, rfl, rfl⟩

/-- Settles O50: none of these is among what a command can change at all. -/
theorem noCommandWritesLengthsIvOrPasswords : Obligations.NoCommandWritesLengthsIvOrPasswords := by
  intro i s t h
  rw [exec_next_rest h]
  exact ⟨rfl, rfl, rfl, rfl, rfl, rfl, rfl, rfl, rfl, fun _ => rfl, fun _ => rfl⟩

end Sys2Proof.Proofs

/-! # Exceptions: what raises a fault, in which order, and what takes it away (spec/60_exceptions.md) -/

namespace Sys2Proof.Machine

open Safety

/-! ## The commands each check is for (R246) -/

theorem usesPw1len_iff {i : Instr} : usesPw1len i = true ↔ i ∈ [Instr.kgen, .init] := by
  cases i <;> simp [usesPw1len]

theorem usesPw2len_iff {i : Instr} :
    usesPw2len i = true ↔ i ∈ [Instr.dgstP, .rnd3E, .rnd3D, .init, .enc, .dec] := by
  cases i <;> simp [usesPw2len]

theorem usesLen_iff {i : Instr} : usesLen i = true ↔ IsRound i := by
  cases i <;> simp [usesLen, IsRound]

theorem usesKey_iff {i : Instr} : usesKey i = true ↔ i ∈ [Instr.enc, .dec] := by
  cases i <;> simp [usesKey]

theorem usesIvByte_iff {i : Instr} : usesIvByte i = true ↔ i = .dec := by
  cases i <;> simp [usesIvByte]

theorem runsRound2_iff {i : Instr} : runsRound2 i = true ↔ i ∈ [Instr.rnd2E, .rnd2D, .enc, .dec] := by
  cases i <;> simp [runsRound2]

/-! ## The order of the checks (R246) -/

/-- One of the checks 1 to 3 fails: a length register the command uses holds a number above its capacity. -/
def LengthCheckFails (i : Instr) (s : State) : Prop :=
  (i ∈ [Instr.kgen, .init] ∧ ¬ Fits s.params.pwMax s.pw1len) ∨
  (i ∈ [Instr.dgstP, .rnd3E, .rnd3D, .init, .enc, .dec] ∧ ¬ Fits s.params.pwMax s.pw2len) ∨
  (IsRound i ∧ ¬ Fits s.params.dataMax s.len)

open scoped Classical in
/-- The checks as R246 numbers them: 1 to 3 give one code, so their three branches are one; then 4, then 5. -/
theorem precheck_eq (i : Instr) (s : State) : precheck i s =
    if LengthCheckFails i s then .len
    else if i ∈ [Instr.enc, .dec] ∧ s.status.keyv = false then .nokey
    else if i = .dec ∧ s.len = 0 then .empty
    else .none := by
  simp only [LengthCheckFails, ← usesPw1len_iff, ← usesPw2len_iff, ← usesLen_iff, ← usesKey_iff, ← usesIvByte_iff,
    fits_iff, Bool.not_eq_true, ite_or, precheck, Bool.and_eq_true, Bool.not_eq_true', beq_iff_eq]

/-- A check that fails gives its code by way of STATUS alone (R243). -/
theorem exec_of_precheck {i : Instr} {s : State} {e : Err} (h : precheck i s = e) (he : e ≠ .none) :
    exec i s = .next { s with status := faulted e s.status.keyv } := by
  subst h
  exact exec_of_check he

/-- A command whose checks pass ends with no fault or with the overrun (R248, R249). -/
theorem exec_of_precheck_none {i : Instr} {s : State} (h : precheck i s = .none) :
    ∃ t, exec i s = .next t ∧ (t.status.err = .none ∨ t.status.err = .grange) := by
  obtain ⟨t, ht⟩ := exec_next i s
  refine ⟨t, ht, ?_⟩
  rw [exec_next_err ht, if_pos h]
  split
  · exact .inr rfl
  · exact .inl rfl

/-! ## The overrun (R249) -/

/-- A command ends with ERR_GRANGE exactly when its checks pass, it runs Round 2 and its window overruns. -/
theorem exec_next_grange_iff {i : Instr} {s t : State} (h : exec i s = .next t) : t.status.err = .grange ↔
    Checked i s ∧ runsRound2 i = true ∧ overruns (s.byteAt .gamma) (windowLen i s) := by
  rw [exec_next_err h, ← precheck_none_iff]
  have hne := (precheck_ne_grange i s).1
  split_ifs with hp ho
  · simp [hp, ho]
  · simpa [hp] using ho
  · simp [hp, hne]

/-- For a command that runs Round 2 on a window that overruns, the check of DEC's first byte passes by itself: its
`LEN - 1` is at least 256. -/
theorem checked_iff_of_overruns {i : Instr} {s : State} (hi : runsRound2 i = true)
    (ho : overruns (s.byteAt .gamma) (windowLen i s)) : Checked i s ↔ Fits s.params.dataMax s.len ∧
      (i = .enc ∨ i = .dec → Fits s.params.pwMax s.pw2len ∧ s.status.keyv = true) := by
  have hiv : i = .dec → 1 ≤ s.len := by
    rintro rfl
    have h256 : 256 ≤ s.len - 1 := ho.2
    omega
  constructor
  · intro hc
    refine ⟨(fits_iff _ _).mpr (hc.len (usesLen_iff.mpr (runsRound2_isRound hi))), ?_⟩
    rintro (rfl | rfl) <;> exact ⟨(fits_iff _ _).mpr (hc.pw2 rfl), hc.key rfl⟩
  · rintro ⟨hfit, hctx⟩
    cases i <;> simp only [runsRound2, Bool.false_eq_true] at hi
    case rnd2E | rnd2D => exact checked_window (by simp) hfit
    case enc => exact checked_enc hfit (hctx (.inl rfl)).1 (hctx (.inl rfl)).2
    case dec => exact checked_dec hfit (hctx (.inr rfl)).1 (hctx (.inr rfl)).2 (hiv rfl)

/-! ## A word that is no command (R245) -/

theorem engineStep_illegal {s : State} (hb : s.status.busy = true) (hw : ∀ i, s.cmdr ≠ encode i) :
    engineStep s = .next (s.enterFault .illcmd) := by
  obtain ⟨r, hd⟩ := rejected_iff.mpr fun ⟨i, hd⟩ => hw i (eq_encode_of_decode hd)
  rw [engineStep, if_pos hb, hd]

/-! ## What takes a fault code away (R253, R280) -/

/-- A host write keeps the fault code, or goes to STATUS and clears it. -/
theorem Target.statusAfter_err (t : Target) (st : Status) :
    (t.statusAfter st).err = st.err ∨ ((t.statusAfter st).err = .none ∧ t = .STATUS) := by
  unfold Target.statusAfter
  split
  case h_1 | h_7 => split <;> exact .inl rfl
  case h_2 => exact .inr ⟨rfl, rfl⟩
  all_goals exact .inl rfl

/-- A host line keeps the fault code, or is reset or an acknowledge and clears it. -/
theorem HostLine.statusAfter_err (l : HostLine) (st : Status) : (l.statusAfter st).err = st.err ∨
    ((l.statusAfter st).err = .none ∧ (l = .reset ∨ l = .ack ∨ ∃ v, l = .wr .STATUS v)) := by
  cases l with
  | wr t v => exact (t.statusAfter_err st).imp_right fun ⟨he, ht⟩ => ⟨he, .inr (.inr ⟨v, by rw [ht]⟩)⟩
  | cmd _ => exact (Target.CMD.statusAfter_err st).imp_right fun ⟨_, ht⟩ => nomatch ht
  | rd _ | wait => exact .inl rfl
  | ack => exact .inr ⟨rfl, .inr (.inl rfl)⟩
  | reset => exact .inr ⟨rfl, .inl rfl⟩

end Sys2Proof.Machine

namespace Sys2Proof.Proofs

open Sys2Proof.Machine Sys2Proof.Safety

/-- Settles O46: the checks give the code their order says, and where they pass only the overrun is left. -/
theorem checksFaultInOrderBeforeAnyWrite : Obligations.ChecksFaultInOrderBeforeAnyWrite := by
  intro i s badLen noKey noIv
  have hp := precheck_eq i s
  refine ⟨fun hl => ?_, fun hl hk => ?_, fun hl hk hv => ?_, fun hl hk hv => ?_⟩
  · exact exec_of_precheck (hp.trans (if_pos hl)) (by decide)
  · exact exec_of_precheck (hp.trans ((if_neg hl).trans (if_pos hk))) (by decide)
  · exact exec_of_precheck (hp.trans ((if_neg hl).trans ((if_neg hk).trans (if_pos hv)))) (by decide)
  · exact exec_of_precheck_none (hp.trans ((if_neg hl).trans ((if_neg hk).trans (if_neg hv))))

/-- Settles O48: the overrun is what is left of Round 2 when the checks pass, and its window makes DEC's check of LEN
pass. -/
theorem overrunExactlyWhenTheCursorReaches255 : Obligations.OverrunExactlyWhenTheCursorReaches255 := by
  intro i s t h
  rw [exec_next_grange_iff h, and_comm, and_assoc, ← runsRound2_iff]
  exact and_congr_right fun hi => and_congr_right fun ho => checked_iff_of_overruns hi ho

/-- Settles O51: fault entry changes STATUS only. -/
theorem illegalCommandFaultsAndChangesNothingElse : Obligations.IllegalCommandFaultsAndChangesNothingElse := by
  intro s hn hb hw
  rw [step_engine hn]
  exact engineStep_illegal hb hw

/-- Settles O55: by the invariant the engine is idle while a fault waits, so only a host line can touch the code. -/
theorem faultStaysUntilAcknowledgeOrReset : Obligations.FaultStaysUntilAcknowledgeOrReset := by
  intro s t hs h he line
  obtain ⟨-, -, hst, -⟩ := inv_iff.mp hs
  have hidle : s.tookTurn.status.busy = false := Bool.eq_false_iff.mpr fun hb => he (hst.1 hb).2
  cases hn : s.nextAgent with
  | engine =>
    rw [step_engine hn, engineStep_idle hidle] at h
    cases h
    exact .inl rfl
  | host =>
    rw [step_host hn] at h
    obtain ⟨-, ht⟩ | ⟨l, hl, ht⟩ := hostStep_next_status h <;> rw [ht]
    · exact .inl rfl
    · refine (l.statusAfter_err s.status).imp_right fun ⟨hnone, hkind⟩ => ⟨hnone, ?_⟩
      obtain rfl | rfl | ⟨v, rfl⟩ := hkind
      · exact .inl ⟨hn, hl⟩
      · exact .inr (.inl ⟨hn, hl⟩)
      · exact .inr (.inr ⟨v, hn, hl⟩)

end Sys2Proof.Proofs

/-! # The reset event (spec/70_reset_and_hazards.md) -/

namespace Sys2Proof.Machine

/-- The line `reset` is a legal move in every state: no guard on BUSY or on a waiting fault stands before it (R281). -/
theorem step_reset {s : State} {rest : List HostLine} (hn : s.nextAgent = .host) (hs : s.script = .reset :: rest) :
    step s = .next (resetEvent { s.tookTurn with script := rest }) :=
  step_host_line hn hs

/-- The reset event leaves the STATUS of the machine right after reset, whatever it held before (R280, R37). -/
theorem resetEvent_status_eq_reset (s : State) : (resetEvent s).status = State.reset.status := rfl

/-- The reset event leaves the three lengths 0 (R280). -/
theorem resetEvent_lengths (s : State) :
    (resetEvent s).len = 0 ∧ (resetEvent s).pw1len = 0 ∧ (resetEvent s).pw2len = 0 := ⟨rfl, rfl, rfl⟩

end Sys2Proof.Machine

namespace Sys2Proof.Proofs

open Sys2Proof.Machine

/-- Settles O53: the host's step on the line `reset` is the reset event, busy or idle, and the event leaves the STATUS
that O3 reads as 0x00, the lengths 0, and the parameters and the host's script and log as they were. -/
theorem resetEventClearsTheControlState : Obligations.ResetEventClearsTheControlState := by
  intro s rest hn hs
  obtain ⟨-, hbyte, -⟩ := resetClearsTheControlState
  obtain ⟨hlen, hpw1len, hpw2len⟩ := resetEvent_lengths { s.tookTurn with script := rest }
  refine ⟨_, step_reset hn hs, ?status, hlen, hpw1len, hpw2len, ?params, ?script, ?hostLog⟩
  case status => rw [resetEvent_status_eq_reset, hbyte]
  case params => rw [resetEvent_params, State.tookTurn_params]
  case script => rw [resetEvent_script]
  case hostLog => rw [resetEvent_hostLog, State.tookTurn_hostLog]

end Sys2Proof.Proofs
